-- ==== Sys2Proof/Config.lean ====
section
/-! DEFINITION. The implementation parameters of spec/00_scope.md R5, each at the value R5 gives. The spec leaves no value
open, so there is no free value here. -/

namespace Sys2Proof.Config

/-- `HDR`: bytes of the BitFile header (R5). -/
abbrev hdr : Nat := 4

/-- `W`: the largest bit count of one command (R5, D11). -/
abbrev maxBits : Nat := 32

/-- The largest declared payload bit length, `2^LEN_W - 1` (R5, R124). -/
abbrev maxTotal : Nat := 4294967295

/-- `PQ_CAPACITY`: the largest number of OPL entries (R5, D22). -/
abbrev pqCapacity : Nat := 256

/-- `STORE_MAX = 4 + 2^29`: the largest `fileSize` (R5, D14). -/
abbrev storeMax : Nat := 536870916

/-- `NREG`: the number of block registers (R5, R22). -/
abbrev nreg : Nat := 9

/-- `NSYM`: the number of symbols (R5, R161). -/
abbrev nsym : Nat := 256

/-- The longest input of the client procedures, in bytes (R167, D42). -/
abbrev maxInput : Nat := 4294967295

end Sys2Proof.Config
end

