-- ==== Sys2Proof/Word.lean ====
section
/-! DEFINITION. The word types of HBC (spec/00_scope.md R5, R6): bytes of the Storage, 32-bit values, 64-bit command and
response words. -/

namespace Sys2Proof

/-- A byte of the Storage, and an 8-bit field of a command or response word (R35, R75, R77). -/
abbrev Byte := BitVec 8

/-- A command word: `CMD_W = 64` bits (R75). -/
abbrev CmdWord := BitVec 64

/-- A response word: 64 bits (R77). -/
abbrev RespWord := BitVec 64

end Sys2Proof
end

