-- ==== Sys2Proof/Syntax.lean ====
section
/-! DEFINITION. The nine commands of the opcode map (spec/30_encoding.md R83), one constructor each. -/

namespace Sys2Proof

/-- A command with its operands as the command word's fields carry them (R76, R81, R82). -/
inductive Instr where
  /-- PQ.INSERT: `payload` from PAY, `weight` from DATA (R101). -/
  | pqInsert (payload : BitVec 16) (weight : BitVec 32)
  /-- PQ.REMOVEMIN (R102). -/
  | pqRemoveMin
  /-- PQ.SIZE (R103). -/
  | pqSize
  /-- BS.OPEN: `mode` from AUX; 0 is write, 1 is read, 2 to 255 fault in execution (R82, R121). -/
  | bsOpen (mode : BitVec 8)
  /-- BS.WRITE: the bit count `n` from AUX, `value` from DATA (R81, R124). -/
  | bsWrite (n : BitVec 8) (value : BitVec 32)
  /-- BS.READ: the bit count `n` from AUX (R81, R125). -/
  | bsRead (n : BitVec 8)
  /-- BS.MORE (R126). -/
  | bsMore
  /-- BS.CLOSE (R127). -/
  | bsClose
  /-- RDREG: the register number from AUX (R82, R150). -/
  | rdReg (num : BitVec 8)
  deriving DecidableEq, Repr

end Sys2Proof
end

