-- ==== Sys2Proof/WellFormed.lean ====
section
/-! DEFINITION. Which commands have legal operands (spec/30_encoding.md R83, the column "further condition"; R84). -/

namespace Sys2Proof

/-- The bit count of BS.WRITE and BS.READ is 0 to `W = 32` (R81). -/
def Instr.bitCountOk (n : BitVec 8) : Bool := decide (n.toNat ≤ Config.maxBits)

/-- The register number of RDREG is 0 to 8 (R82). -/
def Instr.regNumOk (num : BitVec 8) : Bool := decide (num.toNat < Config.nreg)

/-- A command whose word is legal (R83, R84). Every mode of BS.OPEN is well formed: 2 to 255 fault in execution (R86). -/
def Instr.wf : Instr → Bool
  | .pqInsert _ _ => true
  | .pqRemoveMin => true
  | .pqSize => true
  | .bsOpen _ => true
  | .bsWrite n _ => Instr.bitCountOk n
  | .bsRead n => Instr.bitCountOk n
  | .bsMore => true
  | .bsClose => true
  | .rdReg num => Instr.regNumOk num

end Sys2Proof
end

