-- ==== Sys2Proof/Decode.lean ====
section
/-! DEFINITION. Command words (spec/30_encoding.md R75, R76, R83 to R86, R90): the fields, the opcode map, the total decoder that
rejects by name, and the encoder. -/

namespace Sys2Proof

/-- `OP`, bits 63:56 (R75). -/
def opField (w : CmdWord) : BitVec 8 := w.extractLsb' 56 8

/-- `AUX`, bits 55:48 (R75). -/
def auxField (w : CmdWord) : BitVec 8 := w.extractLsb' 48 8

/-- `PAY`, bits 47:32 (R75). -/
def payField (w : CmdWord) : BitVec 16 := w.extractLsb' 32 16

/-- `DATA`, bits 31:0 (R75). -/
def dataField (w : CmdWord) : BitVec 32 := w.extractLsb' 0 32

/-- The command word with these four fields (R75). -/
def mkWord (op aux : BitVec 8) (pay : BitVec 16) (data : BitVec 32) : CmdWord := op ++ aux ++ pay ++ data

/-- Why a word is illegal (R84). Every one of them is the one fault kind `IllegalCommand` (R209). -/
inductive IllegalWord where
  /-- `OP` is not one of the nine (R84, R86). -/
  | unknownOpcode
  /-- A field the format does not use is not zero (R85). -/
  | reservedNotZero
  /-- BS.WRITE or BS.READ with `AUX > 32` (R84). -/
  | bitCountTooLarge
  /-- RDREG with `AUX > 8` (R84). -/
  | registerTooLarge
  deriving DecidableEq, Repr

/-- One row of the opcode map (R83). `auxMax` is the further condition `AUX <= auxMax`; 255 is no condition. -/
structure OpRow where
  matchBits : CmdWord
  mask : CmdWord
  auxMax : Nat
  deriving DecidableEq, Repr

/-- The row of each command's opcode (R83). -/
def Instr.row : Instr → OpRow
  | .pqInsert _ _ => ⟨0x1000000000000000#64, 0xFFFF000000000000#64, 255⟩
  | .pqRemoveMin => ⟨0x1100000000000000#64, 0xFFFFFFFFFFFFFFFF#64, 255⟩
  | .pqSize => ⟨0x1200000000000000#64, 0xFFFFFFFFFFFFFFFF#64, 255⟩
  | .bsOpen _ => ⟨0x2000000000000000#64, 0xFF00FFFFFFFFFFFF#64, 255⟩
  | .bsWrite _ _ => ⟨0x2100000000000000#64, 0xFF00FFFF00000000#64, 32⟩
  | .bsRead _ => ⟨0x2200000000000000#64, 0xFF00FFFFFFFFFFFF#64, 32⟩
  | .bsMore => ⟨0x2300000000000000#64, 0xFFFFFFFFFFFFFFFF#64, 255⟩
  | .bsClose => ⟨0x2400000000000000#64, 0xFFFFFFFFFFFFFFFF#64, 255⟩
  | .rdReg _ => ⟨0x3000000000000000#64, 0xFF00FFFFFFFFFFFF#64, 8⟩

/-- The opcode map, in its order (R83). -/
def opcodeTable : List OpRow :=
  [Instr.row (.pqInsert 0 0), Instr.row .pqRemoveMin, Instr.row .pqSize, Instr.row (.bsOpen 0), Instr.row (.bsWrite 0 0),
    Instr.row (.bsRead 0), Instr.row .bsMore, Instr.row .bsClose, Instr.row (.rdReg 0)]

/-- The word satisfies the row's match, mask and further condition (R83, R85). -/
def OpRow.selects (r : OpRow) (w : CmdWord) : Bool :=
  decide (w &&& r.mask = r.matchBits) && decide ((auxField w).toNat ≤ r.auxMax)

/-- Accept `i` when the reserved fields are zero (R85). -/
def checkReserved (zero : Bool) (i : Instr) : Except IllegalWord Instr :=
  if zero then .ok i else .error .reservedNotZero

/-- The decoder: find the row by `OP`, check the reserved fields, check the further condition, otherwise illegal (R90). -/
def decode (w : CmdWord) : Except IllegalWord Instr :=
  let aux := auxField w
  let pay := payField w
  let data := dataField w
  let formatN := decide (aux = 0#8) && decide (pay = 0#16) && decide (data = 0#32)
  let formatA := decide (pay = 0#16) && decide (data = 0#32)
  if opField w = 0x10#8 then checkReserved (decide (aux = 0#8)) (.pqInsert pay data)
  else if opField w = 0x11#8 then checkReserved formatN .pqRemoveMin
  else if opField w = 0x12#8 then checkReserved formatN .pqSize
  else if opField w = 0x20#8 then checkReserved formatA (.bsOpen aux)
  else if opField w = 0x21#8 then
    if Instr.bitCountOk aux then checkReserved (decide (pay = 0#16)) (.bsWrite aux data)
    else .error .bitCountTooLarge
  else if opField w = 0x22#8 then
    if Instr.bitCountOk aux then checkReserved formatA (.bsRead aux) else .error .bitCountTooLarge
  else if opField w = 0x23#8 then checkReserved formatN .bsMore
  else if opField w = 0x24#8 then checkReserved formatN .bsClose
  else if opField w = 0x30#8 then
    if Instr.regNumOk aux then checkReserved formatA (.rdReg aux) else .error .registerTooLarge
  else .error .unknownOpcode

/-- The encoder, from the formats and the opcode map (R76, R83). -/
def encode : Instr → CmdWord
  | .pqInsert payload weight => mkWord 0x10#8 0#8 payload weight
  | .pqRemoveMin => mkWord 0x11#8 0#8 0#16 0#32
  | .pqSize => mkWord 0x12#8 0#8 0#16 0#32
  | .bsOpen mode => mkWord 0x20#8 mode 0#16 0#32
  | .bsWrite n value => mkWord 0x21#8 n 0#16 value
  | .bsRead n => mkWord 0x22#8 n 0#16 0#32
  | .bsMore => mkWord 0x23#8 0#8 0#16 0#32
  | .bsClose => mkWord 0x24#8 0#8 0#16 0#32
  | .rdReg num => mkWord 0x30#8 num 0#16 0#32

/-- The command word with bits `w` in the opcode table's numbering: the command port takes the 64-bit word whole, bit 0 least
significant (R6, R75); bits from `nbits` up are zero (log entry 10). -/
def wordOfTable (nbits w : Nat) : CmdWord := BitVec.ofNat 64 (w % 2 ^ nbits)

/-- What the decoder reads from a table word; `none` where it refuses. -/
def decodeTableWord (nbits w : Nat) : Option Instr :=
  match decode (wordOfTable nbits w) with
  | .ok i => some i
  | .error _ => none

end Sys2Proof
end

