-- ==== Sys2Proof/Machine/State.lean ====
section
/-! DEFINITION. The machine's state as plain data (spec/10_state.md), the host's moves and what it gets back
(spec/70_reset_and_hazards.md R247), the spec's fault kinds (spec/60_exceptions.md R200), and the model's own stops. -/

namespace Sys2Proof.Machine

/-- The fault kinds of the spec (R200). A command that raises one COMPLETES in the model: it is a next state whose response word
carries the kind's code (R211). They are not the model's `Fault`. -/
inductive FaultKind where
  /-- Code 1, raised by BS.OPEN (R201). -/
  | configurationError
  /-- Code 2, raised by BS.OPEN in read mode (R202). -/
  | corruptInputError
  /-- Code 3, raised by BS.READ, and by the Decoder on the host (R203). -/
  | truncatedStreamError
  /-- Code 4, raised by PQ.REMOVEMIN (R204). -/
  | emptyCollectionError
  /-- Code 5, never raised by the block; the Tree Builder's (R205). -/
  | internalInvariantError
  /-- Code 6, never raised by the block; the Encoder's (R206). -/
  | symbolNotInTableError
  /-- Code 7, raised by PQ.INSERT and BS.WRITE (R207). -/
  | capacityError
  /-- Code 8, raised by the BSC commands in the wrong mode (R208). -/
  | protocolError
  /-- Code 9, raised by any word that is not a legal command (R209). -/
  | illegalCommand
  deriving DecidableEq, Repr

/-- `BS_MODE` (R23): 0 Idle, 1 Write, 2 Read; the value 3 never occurs, so it has no constructor (log entry 8). -/
inductive BsMode where
  | idle
  | write
  | read
  deriving DecidableEq, Repr

/-- An OPL entry (R32). -/
structure Entry where
  payload : BitVec 16
  weight : BitVec 32
  deriving DecidableEq, Repr

/-- The listed bytes of the Storage: addresses strictly rising, no listed byte equal to what an unlisted one reads as. -/
abbrev Memory := List Host.Cell

/-- The Storage (R35): its bytes and its length `fileSize` (R36). An address at or above `fileSize` does not exist. -/
structure Storage where
  mem : Memory
  fileSize : Nat
  deriving DecidableEq, Repr

/-- The host's moves (R247). -/
inductive HostMove where
  /-- Issue one command word, any of the `2^64`. -/
  | issue (w : CmdWord)
  /-- Apply reset (R230). -/
  | reset
  /-- Load or replace the Storage: its bytes from offset 0, `fileSize` their number. -/
  | loadStorage (image : List Byte)
  /-- Read the Storage. -/
  | readStorage
  deriving DecidableEq, Repr

/-- What the host got back from its latest move (R247). -/
inductive HostReply where
  /-- Nothing: after reset and after loading the Storage. -/
  | nothing
  /-- The response word of a command (R77). -/
  | response (w : RespWord)
  /-- The bytes of the Storage, offset 0 first; their number is `fileSize`. -/
  | storageImage (bytes : List Byte)
  deriving DecidableEq, Repr

/-- The model's own stops. None is a fault of the spec (those are `FaultKind`): each marks a host move the spec says is no move, or a
register state the spec says never occurs. -/
inductive Fault where
  /-- Raised by a host move that loads or reads the Storage while a session is open: R247 "never", U8 "may instead make any host write
  during a session a `fault` of the run". Safe (log entry 5). -/
  | hostStorageInSession
  /-- Raised by a host move that loads more than `STORE_MAX` bytes: R247 allows `fileSize <= STORE_MAX` only. Safe (log entry 5). -/
  | hostStorageTooLong
  /-- Raised by `MemRead` at or above `fileSize`: R64 "A rule never reads at `a >= fileSize`". No command reaches it. Safe (log entry 7). -/
  | storageReadOutside
  /-- Raised by `MemWrite` above `fileSize` or at `STORE_MAX` and up, by BS.WRITE and BS.CLOSE in register states that R39 excludes:
  R64 "A rule never writes at `a > fileSize`". Safe (log entry 7). -/
  | storageWriteOutside
  /-- Raised by BS.READ when `BS_REMAIN > BS_LEN`, which R22 and R40 exclude. Safe (log entry 7). -/
  | readPositionNegative
  /-- Raised by PQ.REMOVEMIN when `PQ_COUNT` is not 0 and the OPL holds no entry, which R29 excludes. Safe (log entry 7). -/
  | oplEntryMissing
  deriving DecidableEq, Repr

/-- Refusals. -/
inductive Refusal where
  /-- Raised by an arm of `exec` whose instruction has no meaning yet; none is left. Safe. -/
  | notModelled (mnemonic : String)
  deriving DecidableEq, Repr

end Sys2Proof.Machine

namespace Sys2Proof.Machine

/-- The whole state at a command boundary: the registers of R22, the OPL entries (R32), the Storage (R35), and the two ports. `ST_FSIZE`
is no register of its own (R31): it is read from `storage.fileSize`. -/
structure State where
  /-- `x[0]`, `BS_MODE` (R23). -/
  bsMode : BsMode
  /-- `x[1]`, `BS_TOTAL` (R24). -/
  bsTotal : BitVec 32
  /-- `x[2]`, `BS_LEN` (R25). -/
  bsLen : BitVec 32
  /-- `x[3]`, `BS_REMAIN` (R26). -/
  bsRemain : BitVec 32
  /-- `x[4]`, `BS_ACC` (R27). -/
  bsAcc : BitVec 7
  /-- `x[5]`, `BS_NACC` (R28). -/
  bsNacc : BitVec 3
  /-- `x[6]`, `PQ_COUNT` (R29). -/
  pqCount : BitVec 9
  /-- `x[7]`, `ERRLOG` (R30). -/
  errlog : BitVec 4
  /-- The OPL entries, head first (R32). -/
  opl : List Entry
  /-- The Storage (R35, R36). -/
  storage : Storage
  /-- The response port: what the latest host move got back (R77, R247). -/
  reply : HostReply
  /-- The command port: the host moves still to come, next first (R247, R248). -/
  moves : List HostMove
  deriving DecidableEq, Repr

/-- The outcome of a meaning. -/
abbrev Result := Host.Outcome State Fault Refusal

/-- The machine right after reset (R231), with an empty Storage (log entry 1), no response word (R247) and no host move yet
(log entry 3). -/
def State.reset : State where
  bsMode := .idle
  bsTotal := 0
  bsLen := 0
  bsRemain := 0
  bsAcc := 0
  bsNacc := 0
  pqCount := 0
  errlog := 0
  opl := []
  storage := ⟨[], 0⟩
  reply := .nothing
  moves := []

end Sys2Proof.Machine
end

