-- ==== Sys2Proof/Machine/Operands.lean ====
section
/-! DEFINITION. Every operand form of the commands (spec/30_encoding.md R81, R82): the bit count and the value's low-order bits, the
open mode, the register number, the OPL entry. -/

namespace Sys2Proof.Machine

/-- A legal bit count operand: AUX as an unsigned number, 0 to `W` (R81, R84). -/
def bitCountLegal (aux : BitVec 8) : Bool := decide (aux.toNat ≤ Config.maxBits)

/-- The low-order `n` bits of the value, `DATA mod 2^n`; the higher bits are ignored (R6, R81). -/
def lowBits (value : BitVec 32) (n : Nat) : Nat := value.toNat % 2 ^ n

/-- The two valid open modes (R82). -/
inductive OpenMode where
  | write
  | read
  deriving DecidableEq, Repr

/-- The open mode operand: 0 is write, 1 is read, 2 to 255 are no mode (R82, R121). -/
def openMode (aux : BitVec 8) : Option OpenMode :=
  match aux.toNat with
  | 0 => some .write
  | 1 => some .read
  | _ => none

/-- The entry PQ.INSERT puts in: the payload as given, the weight unsigned (R82, R101). -/
def entryOf (payload : BitVec 16) (weight : BitVec 32) : Entry := ⟨payload, weight⟩

end Sys2Proof.Machine
end

