-- ==== Sys2Proof/Machine/Flags.lean ====
section
/-! DEFINITION. The block's one flag-like register, `ERRLOG`, and the fault codes it records (spec/10_state.md R30,
spec/60_exceptions.md R200). The block has no condition codes (R30). -/

namespace Sys2Proof.Machine

/-- The code of a fault kind (R200). -/
def FaultKind.code : FaultKind → BitVec 4
  | .configurationError => 1
  | .corruptInputError => 2
  | .truncatedStreamError => 3
  | .emptyCollectionError => 4
  | .internalInvariantError => 5
  | .symbolNotInTableError => 6
  | .capacityError => 7
  | .protocolError => 8
  | .illegalCommand => 9

/-- The kind a response's `STATUS` names; `none` for 0 and for the codes that never appear (R200). -/
def kindOfStatus (status : BitVec 8) : Option FaultKind :=
  match status.toNat with
  | 1 => some .configurationError
  | 2 => some .corruptInputError
  | 3 => some .truncatedStreamError
  | 4 => some .emptyCollectionError
  | 5 => some .internalInvariantError
  | 6 => some .symbolNotInTableError
  | 7 => some .capacityError
  | 8 => some .protocolError
  | 9 => some .illegalCommand
  | _ => none

/-- `ERRLOG` after a fault of kind `k`: the first code since reset stays (R30, R211). -/
def errlogAfter (k : FaultKind) (errlog : BitVec 4) : BitVec 4 :=
  if errlog = 0 then k.code else errlog

end Sys2Proof.Machine
end

