-- ==== Sys2Proof/Machine/Ops.lean ====
section
/-! DEFINITION. The operations the meanings share: the Storage's bytes (spec/20_memory.md), the sorted insertion
(spec/40_ordered_priority_list.md R101), the bit packing loops (spec/41_bit_stream_codec.md R124, R125), the response word
(spec/30_encoding.md R77), raising a fault (spec/60_exceptions.md R211), reset (spec/70_reset_and_hazards.md R231, R232), reading a
register (spec/42_system.md R150). -/

namespace Sys2Proof.Machine

/-- `ceil8(a) = (a + 7) div 8`, over the unbounded integers (R7). -/
def ceil8 (a : Nat) : Nat := (a + 7) / 8

/-! ## The Storage's bytes -/

/-- What an unlisted byte below `fileSize` reads as (log entry 2). -/
def unlistedByte : Byte := 0

/-- The byte listed at an address. -/
def Memory.get : Memory → Nat → Byte
  | [], _ => unlistedByte
  | (a, b) :: rest, x => if a = x then b else Memory.get rest x

/-- Set the byte at an address, keeping the canonical form. -/
def Memory.set : Memory → Nat → Byte → Memory
  | [], x, v => if v = unlistedByte then [] else [(x, v)]
  | (a, b) :: rest, x, v =>
    if x < a then (if v = unlistedByte then (a, b) :: rest else (x, v) :: (a, b) :: rest)
    else if x = a then (if v = unlistedByte then rest else (x, v) :: rest)
    else (a, b) :: Memory.set rest x v

/-- The canonical form: addresses strictly rising, no listed byte equal to what an unlisted one reads as. -/
abbrev Memory.wf (m : Memory) : Prop :=
  List.Pairwise (fun p q : Host.Cell => p.1 < q.1) m ∧ ∀ p ∈ m, p.2 ≠ unlistedByte

/-- The Storage is well formed: canonical bytes, none listed at or above `fileSize`, and `fileSize <= STORE_MAX` (R36). -/
abbrev Storage.wf (st : Storage) : Prop :=
  Memory.wf st.mem ∧ (∀ p ∈ st.mem, p.1 < st.fileSize) ∧ st.fileSize ≤ Config.storeMax

/-- `Store[a]`, the byte at an offset below `fileSize` (R35). -/
def Storage.byte (st : Storage) (a : Nat) : Byte := Memory.get st.mem a

/-- `MemRead(a, 1)`: legal only below `fileSize`, no side effect (R8, R55, R64). -/
def Storage.memRead (st : Storage) (a : Nat) : Except Fault Byte :=
  if a < st.fileSize then .ok (st.byte a) else .error .storageReadOutside

/-- `MemWrite(a, 1, v)`: legal up to `fileSize` and below `STORE_MAX`; at `fileSize` it appends (R8, R64). -/
def Storage.memWrite (st : Storage) (a : Nat) (v : Byte) : Except Fault Storage :=
  if a ≤ st.fileSize ∧ a < Config.storeMax then
    .ok { mem := Memory.set st.mem a v, fileSize := if a = st.fileSize then st.fileSize + 1 else st.fileSize }
  else .error .storageWriteOutside

/-- Byte writes at consecutive offsets, lowest first (R54, R55). -/
def Storage.memWriteRun (st : Storage) (a : Nat) : List Byte → Except Fault Storage
  | [] => .ok st
  | v :: vs =>
    match st.memWrite a v with
    | .error f => .error f
    | .ok st' => Storage.memWriteRun st' (a + 1) vs

/-- The cells of a byte sequence laid from an address up. -/
def cellsFrom (a : Nat) : List Byte → Memory
  | [] => []
  | v :: vs => if v = unlistedByte then cellsFrom (a + 1) vs else (a, v) :: cellsFrom (a + 1) vs

/-- The Storage that holds exactly these bytes from offset 0 (R35, R247). -/
def Storage.ofBytes (image : List Byte) : Storage := ⟨cellsFrom 0 image, image.length⟩

/-- The bytes of the Storage, offset 0 first (R35, R247). -/
def Storage.bytes (st : Storage) : List Byte := (List.range st.fileSize).map st.byte

/-- The Storage with its contents discarded and `fileSize` 4, before the placeholder header is written (R122). -/
def Storage.discarded : Storage := ⟨[], Config.hdr⟩

/-- The four header bytes of a bit length, big-endian, offset 0 first (R50, R128). -/
def headerBytes (len : Nat) : List Byte :=
  [BitVec.ofNat 8 (len / 2 ^ 24 % 256), BitVec.ofNat 8 (len / 2 ^ 16 % 256), BitVec.ofNat 8 (len / 2 ^ 8 % 256),
    BitVec.ofNat 8 (len % 256)]

/-- `L` as the header gives it, read one byte at a time (R50, R123). -/
def Storage.readHeader (st : Storage) : Except Fault Nat :=
  match st.memRead 0, st.memRead 1, st.memRead 2, st.memRead 3 with
  | .ok b0, .ok b1, .ok b2, .ok b3 =>
    .ok (b0.toNat * 2 ^ 24 + b1.toNat * 2 ^ 16 + b2.toNat * 2 ^ 8 + b3.toNat)
  | _, _, _, _ => .error .storageReadOutside

/-! ## Bits -/

/-- `bit(i) = (Store[4 + i div 8] div 2^(7 - i mod 8)) mod 2` of a byte (R51, R125). -/
def bitOfByte (b : Byte) (i : Nat) : Nat := b.toNat / 2 ^ (7 - i % 8) % 2

/-- The flush loop of BS.WRITE (R124): `k` turns, `k = m div 8`, of writing the oldest 8 of the `m` buffered bits at offset `a`.
Answers the Storage and the bits left in the buffer. -/
def flushBytes : Nat → Nat → Nat → Nat → Storage → Except Fault (Storage × Nat)
  | 0, _, _, buf, st => .ok (st, buf)
  | k + 1, a, m, buf, st =>
    match st.memWrite a (BitVec.ofNat 8 (buf / 2 ^ (m - 8) % 256)) with
    | .error f => .error f
    | .ok st' => flushBytes k (a + 1) (m - 8) (buf % 2 ^ (m - 8)) st'

/-- The read loop of BS.READ (R125): `n` payload bits from index `i`, shifted into `r` first bit most significant. -/
def readRun (st : Storage) : Nat → Nat → Nat → Except Fault Nat
  | 0, _, r => .ok r
  | n + 1, i, r =>
    match st.memRead (Config.hdr + i / 8) with
    | .error f => .error f
    | .ok b => readRun st n (i + 1) (2 * r + bitOfByte b i)

/-! ## The OPL -/

/-- Put an entry before the first entry of equal or larger weight, weights compared unsigned (R101, R106). -/
def oplInsert (e : Entry) : List Entry → List Entry
  | [] => [e]
  | x :: xs => if e.weight.toNat ≤ x.weight.toNat then e :: x :: xs else x :: oplInsert e xs

/-! ## Responses and faults -/

/-- A response word: `STATUS`, eight zero bits, `PAY`, `DATA` (R77). -/
def respWord (status : BitVec 8) (pay : BitVec 16) (data : BitVec 32) : RespWord := status ++ 0#8 ++ pay ++ data

/-- `STATUS`, bits 63:56 of a response (R77). -/
def respStatus (w : RespWord) : BitVec 8 := w.extractLsb' 56 8

/-- The reserved bits 55:48 of a response (R77). -/
def respReserved (w : RespWord) : BitVec 8 := w.extractLsb' 48 8

/-- `PAY`, bits 47:32 of a response (R77). -/
def respPay (w : RespWord) : BitVec 16 := w.extractLsb' 32 16

/-- `DATA`, bits 31:0 of a response (R77). -/
def respData (w : RespWord) : BitVec 32 := w.extractLsb' 0 32

/-- The state with the response word of a command that completed (R77). -/
def State.withResponse (s : State) (pay : BitVec 16) (data : BitVec 32) : State :=
  { s with reply := .response (respWord 0 pay data) }

/-- The state a fault of kind `k` leaves: no change but `ERRLOG`, and the response word with the code and `PAY = DATA = 0` (R211). -/
def State.withFault (s : State) (k : FaultKind) : State :=
  { s with errlog := errlogAfter k s.errlog, reply := .response (respWord (k.code.setWidth 8) 0 0) }

/-- `respond(pay, data)`: the command completes (R8, R77). -/
def respond (pay : BitVec 16) (data : BitVec 32) (s : State) : Result := .next (s.withResponse pay data)

/-- `raise K`: TAKING A FAULT (R8, R211). Control goes nowhere: there is no handler, so nothing is saved and there is no return
(R211, R212). -/
def raise (k : FaultKind) (s : State) : Result := .next (s.withFault k)

/-- The effect of reset on the block: every register 0, the OPL empty, the Storage kept, no response word (R231, R232, R247). -/
def resetBlock (s : State) : State :=
  { State.reset with storage := s.storage, moves := s.moves }

/-! ## Registers -/

/-- The two bits of `BS_MODE` (R23). -/
def BsMode.code : BsMode → BitVec 2
  | .idle => 0
  | .write => 1
  | .read => 2

/-- Block register `x[num]`, zero-extended to 32 bits; `x[8]` is the Storage's `fileSize` (R22, R31, R150). `none` above 8. -/
def readReg (s : State) (num : Nat) : Option (BitVec 32) :=
  match num with
  | 0 => some (s.bsMode.code.setWidth 32)
  | 1 => some s.bsTotal
  | 2 => some s.bsLen
  | 3 => some s.bsRemain
  | 4 => some (s.bsAcc.setWidth 32)
  | 5 => some (s.bsNacc.setWidth 32)
  | 6 => some (s.pqCount.setWidth 32)
  | 7 => some (s.errlog.setWidth 32)
  | 8 => some (BitVec.ofNat 32 s.storage.fileSize)
  | _ => none

end Sys2Proof.Machine
end

