-- ==== Sys2Proof/Machine/Bsc.lean ====
section
/-! DEFINITION. The BSC commands (spec/41_bit_stream_codec.md). -/

namespace Sys2Proof.Machine

/-- BS.OPEN in write mode: discard the contents, `fileSize` 4, zero placeholder header, counters 0 (R122). -/
def openWrite (s : State) : Result :=
  match Storage.memWriteRun Storage.discarded 0 [0, 0, 0, 0] with
  | .error f => .fault f
  | .ok st => respond 0 0 { s with storage := st, bsTotal := 0, bsAcc := 0, bsNacc := 0, bsMode := .write }

/-- BS.OPEN in read mode: read the header and check it against the size of the Storage, in unbounded integers (R123, R130). -/
def openRead (s : State) : Result :=
  if s.storage.fileSize < Config.hdr then raise .corruptInputError s
  else
    match s.storage.readHeader with
    | .error f => .fault f
    | .ok len =>
      if s.storage.fileSize - Config.hdr < ceil8 len then raise .corruptInputError s
      else respond 0 0 { s with bsLen := BitVec.ofNat 32 len, bsRemain := BitVec.ofNat 32 len, bsMode := .read }

/-- BS.OPEN `mode`: the mode operand first, then `BS_MODE`, then the arm (R121, R210). -/
def execBsOpen (mode : BitVec 8) (s : State) : Result :=
  match openMode mode with
  | none => raise .configurationError s
  | some m =>
    if s.bsMode ≠ .idle then raise .protocolError s
    else
      match m with
      | .write => openWrite s
      | .read => openRead s

/-- The part of BS.WRITE after its tests: buffer `BS_NACC + n` bits, flush every full byte, keep the rest (R124, R134). -/
def appendBits (n : Nat) (value : BitVec 32) (s : State) : Result :=
  match flushBytes ((s.bsNacc.toNat + n) / 8) (Config.hdr + s.bsTotal.toNat / 8) (s.bsNacc.toNat + n)
      (s.bsAcc.toNat * 2 ^ n + lowBits value n) s.storage with
  | .error f => .fault f
  | .ok (st, buf) =>
    respond 0 0 { s with
      storage := st
      bsAcc := BitVec.ofNat 7 buf
      bsNacc := BitVec.ofNat 3 ((s.bsNacc.toNat + n) % 8)
      bsTotal := BitVec.ofNat 32 (s.bsTotal.toNat + n) }

/-- BS.WRITE `value, n` (R124). A count above 32 is no legal word (R84; log entry 9). -/
def execBsWrite (n : BitVec 8) (value : BitVec 32) (s : State) : Result :=
  if bitCountLegal n = false then raise .illegalCommand s
  else if s.bsMode ≠ .write then raise .protocolError s
  else if Config.maxTotal < s.bsTotal.toNat + n.toNat then raise .capacityError s
  else if Config.storeMax < Config.hdr + ceil8 (s.bsTotal.toNat + n.toNat) then raise .capacityError s
  else appendBits n.toNat value s

/-- The part of BS.READ after its tests: the next `n` payload bits as a number, counted off (R125). -/
def takeBits (n : Nat) (s : State) : Result :=
  match readRun s.storage n (s.bsLen.toNat - s.bsRemain.toNat) 0 with
  | .error f => .fault f
  | .ok r => respond 0 (BitVec.ofNat 32 r) { s with bsRemain := BitVec.ofNat 32 (s.bsRemain.toNat - n) }

/-- BS.READ `n` (R125). The declared-count test comes before the Storage test (R210, C3). `BS_REMAIN > BS_LEN` is no state of the block
(R22, R40; log entry 7). A count above 32 is no legal word (R84; log entry 9). -/
def execBsRead (n : BitVec 8) (s : State) : Result :=
  if bitCountLegal n = false then raise .illegalCommand s
  else if s.bsMode ≠ .read then raise .protocolError s
  else if s.bsRemain.toNat < n.toNat then raise .truncatedStreamError s
  else if s.bsLen.toNat < s.bsRemain.toNat then .fault .readPositionNegative
  else if s.storage.fileSize < Config.hdr + ceil8 (s.bsLen.toNat - s.bsRemain.toNat + n.toNat) then
    raise .truncatedStreamError s
  else takeBits n.toNat s

/-- BS.MORE (R126). -/
def execBsMore (s : State) : Result :=
  if s.bsMode ≠ .read then raise .protocolError s
  else if 0 < s.bsRemain.toNat then respond 0 1 s
  else respond 0 0 s

/-- The padded last byte of a write session: pending bits high, zeros low; nothing when no bit is pending (R128, C1). -/
def padBytes (s : State) : List Byte :=
  if 0 < s.bsNacc.toNat then [BitVec.ofNat 8 (s.bsAcc.toNat * 2 ^ (8 - s.bsNacc.toNat))] else []

/-- BS.CLOSE in write mode: pad, flush, write the header, release (R128). -/
def closeWrite (s : State) : Result :=
  match Storage.memWriteRun s.storage (Config.hdr + s.bsTotal.toNat / 8) (padBytes s) with
  | .error f => .fault f
  | .ok st =>
    match Storage.memWriteRun st 0 (headerBytes s.bsTotal.toNat) with
    | .error f => .fault f
    | .ok st' => respond 0 0 { s with storage := st', bsAcc := 0, bsNacc := 0, bsMode := .idle }

/-- BS.CLOSE in read mode: release the Storage; no other register changes (R129). -/
def closeRead (s : State) : Result := respond 0 0 { s with bsMode := .idle }

/-- BS.CLOSE (R127). -/
def execBsClose (s : State) : Result :=
  match s.bsMode with
  | .idle => raise .protocolError s
  | .write => closeWrite s
  | .read => closeRead s

end Sys2Proof.Machine
end

