-- ==== Sys2Proof/Machine/Opl.lean ====
section
/-! DEFINITION. The OPL commands (spec/40_ordered_priority_list.md). -/

namespace Sys2Proof.Machine

/-- PQ.INSERT `payload, weight` (R101). -/
def execPqInsert (payload : BitVec 16) (weight : BitVec 32) (s : State) : Result :=
  if s.pqCount.toNat = Config.pqCapacity then raise .capacityError s
  else respond 0 0 { s with opl := oplInsert (entryOf payload weight) s.opl, pqCount := s.pqCount + 1 }

/-- PQ.REMOVEMIN (R102). An empty entry list under a nonzero `PQ_COUNT` is no state of the block (R29; log entry 7). -/
def execPqRemoveMin (s : State) : Result :=
  if s.pqCount = 0 then raise .emptyCollectionError s
  else
    match s.opl with
    | [] => .fault .oplEntryMissing
    | e :: rest => respond e.payload e.weight { s with opl := rest, pqCount := s.pqCount - 1 }

/-- PQ.SIZE (R103). -/
def execPqSize (s : State) : Result := respond 0 (s.pqCount.setWidth 32) s

end Sys2Proof.Machine
end

