-- ==== Sys2Proof/Machine/Sys.lean ====
section
/-! DEFINITION. The system command RDREG (spec/42_system.md), a word that is no legal command (spec/60_exceptions.md R209), and the host's
moves that are no commands (spec/70_reset_and_hazards.md R247). -/

namespace Sys2Proof.Machine

/-- RDREG `xN` (R150). A register number above 8 is no legal word (R84; log entry 9). -/
def execRdReg (num : BitVec 8) (s : State) : Result :=
  match readReg s num.toNat with
  | none => raise .illegalCommand s
  | some v => respond 0 v s

/-- A word that is no legal command responds `IllegalCommand` and does nothing else (R84, R209). -/
def execIllegalWord (s : State) : Result := raise .illegalCommand s

/-- The host applies reset (R230 to R232, R247). -/
def hostReset (s : State) : Result := .next (resetBlock s)

/-- The host loads or replaces the Storage, while Idle and within `STORE_MAX` (R63, R247; log entry 5). -/
def hostLoadStorage (image : List Byte) (s : State) : Result :=
  if s.bsMode ≠ .idle then .fault .hostStorageInSession
  else if Config.storeMax < image.length then .fault .hostStorageTooLong
  else .next { s with storage := Storage.ofBytes image, reply := .nothing }

/-- The host reads the Storage, while Idle; nothing changes but what it gets back (R55, R63, R247; log entry 5). -/
def hostReadStorage (s : State) : Result :=
  if s.bsMode ≠ .idle then .fault .hostStorageInSession
  else .next { s with reply := .storageImage s.storage.bytes }

/-- No host move is left: the block waits and nothing changes (R230, R246; log entry 3). -/
def hostNoMove (s : State) : Result := .next s

end Sys2Proof.Machine
end

