-- ==== Sys2Proof/Machine/Dispatch.lean ====
section
/-! DEFINITION. One arm per command of the opcode map (spec/30_encoding.md R83). -/

namespace Sys2Proof.Machine

/-- The effect of one legal command. -/
def exec (i : Instr) (s : State) : Host.Outcome State Fault Refusal :=
  match i with
  | .pqInsert payload weight => Sys2Proof.Machine.execPqInsert payload weight s
  | .pqRemoveMin => Sys2Proof.Machine.execPqRemoveMin s
  | .pqSize => Sys2Proof.Machine.execPqSize s
  | .bsOpen mode => Sys2Proof.Machine.execBsOpen mode s
  | .bsWrite n value => Sys2Proof.Machine.execBsWrite n value s
  | .bsRead n => Sys2Proof.Machine.execBsRead n s
  | .bsMore => Sys2Proof.Machine.execBsMore s
  | .bsClose => Sys2Proof.Machine.execBsClose s
  | .rdReg num => Sys2Proof.Machine.execRdReg num s

end Sys2Proof.Machine
end

