-- ==== Sys2Proof/Machine/Step.lean ====
section
/-! DEFINITION. One step: the host's next move (spec/70_reset_and_hazards.md R246 to R248). -/

namespace Sys2Proof.Machine

/-- Run one issued command word to its response: decode it, and run the command or raise `IllegalCommand` (R58, R90, R209). -/
def runWord (w : CmdWord) (s : State) : Host.Outcome State Fault Refusal :=
  match decode w with
  | .ok i => exec i s
  | .error _ => execIllegalWord s

/-- Perform the next host move; when none is left the block waits (R246, R248; log entry 3). -/
def step (s : State) : Host.Outcome State Fault Refusal :=
  match s.moves with
  | [] => hostNoMove s
  | .issue w :: rest => runWord w { s with moves := rest }
  | .reset :: rest => hostReset { s with moves := rest }
  | .loadStorage image :: rest => hostLoadStorage image { s with moves := rest }
  | .readStorage :: rest => hostReadStorage { s with moves := rest }

/-- The state in which the host issues this command word next (R247; log entry 10). -/
def State.withFetchWord (s : State) (nbits w : Nat) : State :=
  { s with moves := .issue (wordOfTable nbits w) :: s.moves }

end Sys2Proof.Machine
end

