-- ==== Sys2Proof/Machine/BitFile.lean ====
section
/-! DEFINITION. Bit sequences and the BitFile (spec/00_scope.md R9, spec/20_memory.md R50, R51, R56, spec/30_encoding.md R79, R80), and
the bits a session has appended (spec/10_state.md R38, R39). -/

namespace Sys2Proof.Machine

/-- The value of a bit sequence: the first bit is the most significant; 0 for the empty one (R9). -/
def bitsValue (b : List Bool) : Nat := b.foldl (fun v x => 2 * v + x.toNat) 0

/-- The bit sequence of length `n` whose value is `v mod 2^n`, first bit most significant (R9, R81). -/
def bitsOf (v n : Nat) : List Bool := (List.range n).map (fun j => v.testBit (n - 1 - j))

/-- `bit(i)` of a BitFile's payload: `b_i` below the length and 0 from it on (R79). -/
def padBit (b : List Bool) (i : Nat) : Bool := b.getD i false

/-- `P_k`, the payload byte `k` of a bit sequence: `bit(8k + t)` weighs `2^(7-t)` (R79). -/
def payloadByte (b : List Bool) (k : Nat) : Byte :=
  BitVec.ofNat 8 (bitsValue ((List.range 8).map (fun t => padBit b (8 * k + t))))

/-- `BitFile(b)`: the header and `ceil8(L)` payload bytes (R56, R79). -/
def bitFile (b : List Bool) : List Byte := headerBytes b.length ++ (List.range (ceil8 b.length)).map (payloadByte b)

/-- `L` as the first four bytes give it, big-endian (R50). -/
def Storage.declaredLen (st : Storage) : Nat :=
  (st.byte 0).toNat * 2 ^ 24 + (st.byte 1).toNat * 2 ^ 16 + (st.byte 2).toNat * 2 ^ 8 + (st.byte 3).toNat

/-- Payload bit `i` of the Storage (R51). -/
def Storage.payloadBit (st : Storage) (i : Nat) : Bool := decide (bitOfByte (st.byte (Config.hdr + i / 8)) i = 1)

/-- The first `n` payload bits from index `c` (R51, R125). -/
def Storage.payloadBits (st : Storage) (c n : Nat) : List Bool := (List.range n).map (fun j => st.payloadBit (c + j))

/-- An acceptable BitFile: all that BS.OPEN in read mode checks (R80). -/
abbrev Storage.acceptable (st : Storage) : Prop :=
  Config.hdr ≤ st.fileSize ∧ ceil8 st.declaredLen ≤ st.fileSize - Config.hdr

/-- A canonical BitFile: acceptable, no byte after the payload, and the pad bits zero (R80). -/
abbrev Storage.canonical (st : Storage) : Prop :=
  st.acceptable ∧ st.fileSize = Config.hdr + ceil8 st.declaredLen ∧
    ∀ i < 8 * ceil8 st.declaredLen, st.declaredLen ≤ i → st.payloadBit i = false

/-- The bits a write session has appended so far, oldest first: those flushed to the Storage and then the `BS_NACC` pending ones
(R38, R39). -/
def State.appended (s : State) : List Bool :=
  s.storage.payloadBits 0 (8 * (s.bsTotal.toNat / 8)) ++ bitsOf s.bsAcc.toNat s.bsNacc.toNat

end Sys2Proof.Machine
end

