-- ==== Sys2Proof/Machine/Assembler.lean ====
section
/-! DEFINITION. The pseudo-instructions and the assembler's text (spec/30_encoding.md R88, R89). -/

namespace Sys2Proof

open Sys2Proof.Machine

/-! ## Pseudo-instructions -/

/-- BS.WRITEBITS of a bit sequence of at most 32 bits: one BS.WRITE of its value (R89). -/
def bsWriteBits (b : List Bool) : Instr := .bsWrite (BitVec.ofNat 8 b.length) (BitVec.ofNat 32 (bitsValue b))

/-- BS.READBIT (R89). -/
def bsReadBit : Instr := .bsRead 1

/-- Consecutive chunks of 32 bits from the front, the last holding what is left; `fuel` bounds their number. -/
def chunksOf32 : Nat → List Bool → List (List Bool)
  | 0, _ => []
  | fuel + 1, b => if b.isEmpty then [] else b.take 32 :: chunksOf32 fuel (b.drop 32)

/-- BS.WRITECODE: one BS.WRITEBITS for each chunk (R89, R175, D41). -/
def bsWriteCode (b : List Bool) : List Instr := (chunksOf32 b.length b).map bsWriteBits

/-! ## The assembler's text -/

/-- The line without its comment: a `;` starts one (R88). -/
def stripComment (cs : List Char) : List Char := cs.takeWhile (· ≠ ';')

/-- The text without spaces and tabs at either end (log entry 14). -/
def trimChars (cs : List Char) : List Char :=
  let blankChar : Char → Bool := fun c => c = ' ' || c = '\t'
  ((cs.dropWhile blankChar).reverse.dropWhile blankChar).reverse

/-- The operands: the pieces between commas, trimmed; none for an empty text (R88). -/
def splitCommas : List Char → List (List Char)
  | [] => [[]]
  | c :: cs =>
    if c = ',' then [] :: splitCommas cs
    else
      match splitCommas cs with
      | [] => [[c]]
      | p :: ps => (c :: p) :: ps

/-- The value of a digit in a base. -/
def digitValue (base : Nat) (c : Char) : Option Nat :=
  let v := if '0' ≤ c ∧ c ≤ '9' then c.toNat - '0'.toNat
    else if 'a' ≤ c ∧ c ≤ 'f' then c.toNat - 'a'.toNat + 10
    else if 'A' ≤ c ∧ c ≤ 'F' then c.toNat - 'A'.toNat + 10
    else 99
  if v < base then some v else none

/-- The value of a nonempty digit sequence in a base. -/
def digitsValue (base : Nat) (cs : List Char) : Option Nat :=
  if cs.isEmpty then none
  else cs.foldl (fun acc c => acc.bind fun v => (digitValue base c).map fun d => base * v + d) (some 0)

/-- A number: decimal, hexadecimal with `0x`, or binary with `0b` (R88). -/
def parseNum (cs : List Char) : Option Nat :=
  match cs with
  | '0' :: 'x' :: ds => digitsValue 16 ds
  | '0' :: 'b' :: ds => digitsValue 2 ds
  | ds => digitsValue 10 ds

/-- A number that fits a field of `n` bits. -/
def parseField (n : Nat) (cs : List Char) : Option (BitVec n) :=
  (parseNum cs).bind fun v => if v < 2 ^ n then some (BitVec.ofNat n v) else none

/-- A bit sequence in quotation marks, first bit leftmost (R9, R89). -/
def parseBits (cs : List Char) : Option (List Bool) :=
  match cs with
  | '"' :: rest =>
    match rest.reverse with
    | '"' :: body =>
      body.reverse.foldr (fun c acc => acc.bind fun bs =>
        if c = '0' then some (false :: bs) else if c = '1' then some (true :: bs) else none) (some [])
    | _ => none
  | _ => none

/-- The register names of R22, `x[0]` first. -/
def regNames : List (List Char) :=
  ["BS_MODE".toList, "BS_TOTAL".toList, "BS_LEN".toList, "BS_REMAIN".toList, "BS_ACC".toList, "BS_NACC".toList,
    "PQ_COUNT".toList, "ERRLOG".toList, "ST_FSIZE".toList]

/-- The register operand of RDREG: `xN` or a name of R22 (R88). -/
def parseReg (cs : List Char) : Option (BitVec 8) :=
  match cs with
  | 'x' :: ds => (digitsValue 10 ds).bind fun v => if v < 256 then some (BitVec.ofNat 8 v) else none
  | _ =>
    let k := regNames.idxOf cs
    if k < Config.nreg then some (BitVec.ofNat 8 k) else none

/-- The mode operand of BS.OPEN: `W`, `R`, or `#m` (R88). -/
def parseMode (cs : List Char) : Option (BitVec 8) :=
  match cs with
  | ['W'] => some 0
  | ['R'] => some 1
  | '#' :: ds => parseField 8 ds
  | _ => none

/-- The words of a mnemonic and its operands; `none` where the text is not of the syntax of R88 and R89. A number that is no legal operand but fits
its field gives an illegal word, as the spec's own vectors write them (V27, V30). -/
def assembleParts (mnemonic : List Char) (ops : List (List Char)) : Option (List CmdWord) :=
  let op1 := ops.getD 0 []
  let op2 := ops.getD 1 []
  if mnemonic = "PQ.INSERT".toList ∧ ops.length = 2 then
    (parseField 16 op1).bind fun p => (parseField 32 op2).map fun w => [mkWord 0x10#8 0 p w]
  else if mnemonic = "PQ.REMOVEMIN".toList ∧ ops.length = 0 then some [mkWord 0x11#8 0 0 0]
  else if mnemonic = "PQ.SIZE".toList ∧ ops.length = 0 then some [mkWord 0x12#8 0 0 0]
  else if mnemonic = "BS.OPEN".toList ∧ ops.length = 1 then (parseMode op1).map fun m => [mkWord 0x20#8 m 0 0]
  else if mnemonic = "BS.WRITE".toList ∧ ops.length = 2 then
    (parseField 32 op1).bind fun v => (parseField 8 op2).map fun n => [mkWord 0x21#8 n 0 v]
  else if mnemonic = "BS.READ".toList ∧ ops.length = 1 then (parseField 8 op1).map fun n => [mkWord 0x22#8 n 0 0]
  else if mnemonic = "BS.MORE".toList ∧ ops.length = 0 then some [mkWord 0x23#8 0 0 0]
  else if mnemonic = "BS.CLOSE".toList ∧ ops.length = 0 then some [mkWord 0x24#8 0 0 0]
  else if mnemonic = "RDREG".toList ∧ ops.length = 1 then (parseReg op1).map fun r => [mkWord 0x30#8 r 0 0]
  else if mnemonic = "BS.WRITEBITS".toList ∧ ops.length = 1 then
    (parseBits op1).bind fun b => if b.length ≤ 32 then some [encode (bsWriteBits b)] else none
  else if mnemonic = "BS.READBIT".toList ∧ ops.length = 0 then some [encode bsReadBit]
  else if mnemonic = "BS.WRITECODE".toList ∧ ops.length = 1 then
    (parseBits op1).bind fun b => if b.isEmpty then none else some ((bsWriteCode b).map encode)
  else none

/-- The command words of one line: none for an empty line or a comment, one for a command, one or more for a pseudo-instruction
(R88, R89). -/
def assembleLine (line : List Char) : Option (List CmdWord) :=
  let text := trimChars (stripComment line)
  if text.isEmpty then some []
  else
    let mnemonic := text.takeWhile fun c => !(c = ' ' || c = '\t')
    let rest := trimChars (text.drop mnemonic.length)
    assembleParts mnemonic (if rest.isEmpty then [] else (splitCommas rest).map trimChars)

end Sys2Proof
end

