-- ==== Sys2Proof/Machine/Client.lean ====
section
/-! DEFINITION. The client procedures a host runs over the commands (spec/43_client_procedures.md): Frequency Analyzer, Tree Builder, Code
Table, Encoder, Decoder. They are host software: their data is no state of the block (R37, R160). Each command they give goes
through the machine's own `step`, as the host move "issue a command". -/

namespace Sys2Proof.Client

open Sys2Proof.Machine

/-! ## Data model -/

/-- A symbol and its count, at least 1 (R161, R162). -/
structure FreqEntry where
  symbol : Byte
  count : Nat
  deriving DecidableEq, Repr

/-- A tree node: a Leaf holds one symbol, an Internal exactly two children (R163). A stray is an entry the OPL held before the build, merged into
the tree (R235): all the client knows of it is its node number and weight, and it holds no symbol (DESIGN CHOICE, log entry 15). -/
inductive Tree where
  | leaf (symbol : Byte) (weight : Nat)
  | internal (weight : Nat) (left right : Tree)
  | stray (node weight : Nat)
  deriving DecidableEq, Repr

/-- A code table: each symbol with its code (R164, R165). -/
abbrev CodeTable := List (Byte × List Bool)

/-- The client's nodes by their number: the Leaf of symbol `s` is node `s`, the `t`-th Internal is node `256 + t` (R172). -/
abbrev Arena := List (Nat × Tree)

/-- How a client procedure ends. -/
inductive Ran (α : Type) where
  /-- It ends with a result. -/
  | done (a : α) (s : State)
  /-- It stops and surfaces this kind to its caller (R180). -/
  | failed (k : FaultKind) (s : State)
  /-- It refuses to go on; the spec names no fault for it (R178, D42, U10, U13; log entries 12 and 15). -/
  | declined (s : State)
  /-- The block left the model: a register state the spec says never occurs (log entry 7). -/
  | stopped (f : Fault)
  deriving DecidableEq, Repr

/-- Go on with the result of a procedure that ended with one. -/
def Ran.andThen {α β : Type} (r : Ran α) (f : α → State → Ran β) : Ran β :=
  match r with
  | .done a s => f a s
  | .failed k s => .failed k s
  | .declined s => .declined s
  | .stopped x => .stopped x

/-- Report `InternalInvariantError` in place of `EmptyCollectionError` (R171). -/
def Ran.emptyIsInvariant {α : Type} (r : Ran α) : Ran α :=
  match r with
  | .failed .emptyCollectionError s => .failed .internalInvariantError s
  | _ => r

/-- Issue one command and take its response word; stop at a nonzero `STATUS` (R180, R247). -/
def call (i : Instr) (s : State) : Ran RespWord :=
  match step { s with moves := .issue (encode i) :: s.moves } with
  | .next t =>
    match t.reply with
    | .response w =>
      match kindOfStatus (respStatus w) with
      | none => .done w t
      | some k => .failed k t
    | .nothing => .declined t
    | .storageImage _ => .declined t
  | .fault f => .stopped f
  | .refused _ => .declined s

/-- Issue commands in order, each completing. -/
def callAll : List Instr → State → Ran Unit
  | [], s => .done () s
  | i :: is, s => (call i s).andThen fun _ t => callAll is t

/-! ## Frequency Analyzer -/

/-- Every symbol that appears at least once, with its count, in ascending symbol order (R167, D37). -/
def frequencies (input : List Byte) : List FreqEntry :=
  (List.range Config.nsym).filterMap fun k =>
    let c := input.count (BitVec.ofNat 8 k)
    if c = 0 then none else some ⟨BitVec.ofNat 8 k, c⟩

/-! ## Tree Builder -/

/-- A node of the arena by its number. -/
def Arena.node (a : Arena) (n : Nat) : Option Tree := (a.find? fun p => p.1 = n).map Prod.snd

/-- The weight of a node (R163). -/
def Tree.weight : Tree → Nat
  | .leaf _ w => w
  | .internal w _ _ => w
  | .stray _ w => w

/-- The node a removed payload and weight stand for: the one the client made under that number in this build, otherwise an entry that was in
the OPL before it (R235, log entry 15). -/
def Arena.nodeOf (a : Arena) (p : Nat × Nat) : Tree := (a.node p.1).getD (.stray p.1 p.2)

/-- Create the leaves and insert them, in the order given (R168; the order is the argument's, U3). -/
def insertLeaves : List FreqEntry → Arena → State → Ran Arena
  | [], a, s => .done a s
  | e :: es, a, s =>
    (call (.pqInsert (e.symbol.setWidth 16) (BitVec.ofNat 32 e.count)) s).andThen fun _ t =>
      insertLeaves es ((e.symbol.toNat, .leaf e.symbol e.count) :: a) t

/-- Remove the minimum: its payload and weight; an empty list is `InternalInvariantError` (R168, R171). -/
def removeNode (s : State) : Ran (Nat × Nat) :=
  (call .pqRemoveMin s).emptyIsInvariant.andThen fun w t => .done ((respPay w).toNat, (respData w).toNat) t

/-- The merge loop (R168); `fuel` bounds its turns, each of which lowers `PQ_COUNT` by one (R245). Entries
that were in the OPL before the build take part like the others (R235). -/
def mergeLoop : Nat → Nat → Arena → State → Ran Arena
  | 0, _, _, s => .declined s
  | fuel + 1, t, a, s =>
    (call .pqSize s).andThen fun c s1 =>
      if (respData c).toNat ≤ 1 then .done a s1
      else
        (removeNode s1).andThen fun pA s2 =>
          (removeNode s2).andThen fun pB s3 =>
            if Config.maxInput < pA.2 + pB.2 then .declined s3
            else
              (call (.pqInsert (BitVec.ofNat 16 (Config.nsym + t)) (BitVec.ofNat 32 (pA.2 + pB.2))) s3).andThen fun _ s4 =>
                mergeLoop fuel (t + 1) ((Config.nsym + t, .internal (pA.2 + pB.2) (Arena.nodeOf a pA) (Arena.nodeOf a pB)) :: a) s4

/-- The Tree Builder, over leaves in the order given (R168). R168 starts from an empty OPL; entries already in it are merged into the tree
(R235). For one distinct symbol R170 lets the client skip the OPL or run R168: this one runs R168 there too (DESIGN CHOICE, log entry 16). -/
def buildTree (freqs : List FreqEntry) (s : State) : Ran Tree :=
  (insertLeaves freqs [] s).andThen fun leaves s1 =>
    (mergeLoop (Config.pqCapacity + 1) 0 leaves s1).andThen fun a s2 =>
      (removeNode s2).andThen fun p s3 =>
        .done (Arena.nodeOf a p) s3

/-! ## Code Table -/

/-- The depth-first walk: left appends 0, right appends 1, a Leaf records the bits so far (R173), a stray has no symbol to record
(log entry 15). A Leaf that is in the tree twice is recorded twice (log entry 18). -/
def walkCodes : Tree → List Bool → CodeTable
  | .leaf s _, path => [(s, path)]
  | .internal _ l r, path => walkCodes l (path ++ [false]) ++ walkCodes r (path ++ [true])
  | .stray _ _, _ => []

/-- The code table of a tree; the single-leaf tree gives its symbol the code "0" (R170, R173, D40). -/
def codeTable : Tree → CodeTable
  | .leaf s _ => [(s, [false])]
  | .internal w l r => walkCodes (.internal w l r) []
  | .stray _ _ => []

/-- The code of a symbol (R165). Where a leftover OPL entry put a Leaf into the tree twice (R235, log entry 15) the symbol stands in the table twice,
and the code it is written with is the first the walk records, the leftmost (DESIGN CHOICE, log entry 18). -/
def codeOf (table : CodeTable) (s : Byte) : Option (List Bool) := (table.find? fun p => p.1 = s).map Prod.snd

/-! ## Encoder -/

/-- Write the code of each symbol in order; a symbol with no code stops with `SymbolNotInTableError` and leaves the session open
(R174, R206, U6). -/
def writeSymbols (table : CodeTable) : List Byte → State → Ran Unit
  | [], s => .done () s
  | b :: bs, s =>
    match codeOf table b with
    | none => .failed .symbolNotInTableError s
    | some code => (callAll (bsWriteCode code) s).andThen fun _ t => writeSymbols table bs t

/-- The Encoder (R174). -/
def encodeWith (table : CodeTable) (input : List Byte) (s : State) : Ran Unit :=
  (call (.bsOpen 0) s).andThen fun _ s1 =>
    (writeSymbols table input s1).andThen fun _ s2 =>
      (call .bsClose s2).andThen fun _ s3 => .done () s3

/-- A whole encode: the empty input builds no tree (R169), any other, one of a single distinct symbol
included, is analysed, its tree built by R168 (R170; DESIGN CHOICE, log entry 16) and its symbols written; an input
longer than the spec's limit is declined (D42, U13). Answers the tree, which the file does not carry (R179). -/
def encodeInput (input : List Byte) (s : State) : Ran (Option Tree) :=
  if Config.maxInput < input.length then .declined s
  else
    match frequencies input with
    | [] => (encodeWith [] [] s).andThen fun _ t => .done none t
    | f :: fs =>
      (buildTree (f :: fs) s).andThen fun root t =>
        (encodeWith (codeTable root) input t).andThen fun _ u => .done (some root) u

/-! ## Decoder -/

/-- Where the Decoder stands: at the root, or traversing below it (R176). Done is the end of the loop. -/
inductive Position where
  | atRoot
  | traversing (cur : Tree)
  deriving DecidableEq, Repr

/-- The node the Decoder stands at. -/
def Position.node (root : Tree) : Position → Tree
  | .atRoot => root
  | .traversing cur => cur

/-- What a procedure emitted, in order, to the sink of decoded bytes (U14), beside how it ended. The symbols emitted before a stop stay
emitted (R176; vector V34). -/
structure Emitted (α : Type) where
  output : List Byte
  ending : Ran α
  deriving DecidableEq, Repr

/-- A procedure that emits nothing. -/
def Ran.silent {α : Type} (r : Ran α) : Emitted α := ⟨[], r⟩

/-- Go on with a procedure that may emit; nothing was emitted before. -/
def Ran.thenEmits {α β : Type} (r : Ran α) (f : α → State → Emitted β) : Emitted β :=
  match r with
  | .done a s => f a s
  | .failed k s => ⟨[], .failed k s⟩
  | .declined s => ⟨[], .declined s⟩
  | .stopped x => ⟨[], .stopped x⟩

/-- Emit one symbol, then what `r` emits. -/
def Emitted.after {α : Type} (c : Byte) (r : Emitted α) : Emitted α := ⟨c :: r.output, r.ending⟩

/-- Go on with a procedure that emits no more. -/
def Emitted.andThen {α β : Type} (r : Emitted α) (f : α → State → Ran β) : Emitted β := ⟨r.output, r.ending.andThen f⟩

/-- The Decoder's loop (R176), ending with where it stands; `fuel` bounds its turns, each of which lowers `BS_REMAIN` by one (R245). At a
stray, where there is no symbol to emit, it refuses to go on (log entry 15). -/
def decodeLoop (root : Tree) : Nat → Position → State → Emitted Position
  | 0, _, s => (Ran.declined s).silent
  | fuel + 1, pos, s =>
    (call .bsMore s).thenEmits fun m s1 =>
      if respData m = 0 then (Ran.done pos s1).silent
      else
        (call bsReadBit s1).thenEmits fun b s2 =>
          match pos.node root with
          | .leaf _ _ => (Ran.declined s2).silent
          | .stray _ _ => (Ran.declined s2).silent
          | .internal _ l r =>
            match if respData b = 0 then l else r with
            | .leaf c _ => (decodeLoop root fuel .atRoot s2).after c
            | .internal w l' r' => decodeLoop root fuel (.traversing (.internal w l' r')) s2
            | .stray _ _ => (Ran.declined s2).silent

/-- The loop for a single-Leaf tree: one bit an occurrence, whatever the bit (R170, R177). -/
def decodeLeafLoop (c : Byte) : Nat → State → Emitted Unit
  | 0, s => (Ran.declined s).silent
  | fuel + 1, s =>
    (call .bsMore s).thenEmits fun m s1 =>
      if respData m = 0 then (Ran.done () s1).silent
      else (call bsReadBit s1).thenEmits fun _ s2 => (decodeLeafLoop c fuel s2).after c

/-- The end of a decode: close, then `TruncatedStreamError` unless the Decoder stands at the root (R176). -/
def decodeEnd (pos : Position) (s : State) : Ran Unit :=
  (call .bsClose s).andThen fun _ t =>
    match pos with
    | .atRoot => .done () t
    | .traversing _ => .failed .truncatedStreamError t

/-- The Decoder over the tree the Encoder used, or no tree (R176 to R179): the symbols it emitted and how it ended. With no tree a nonzero
length is refused (R178, D44). -/
def decodeWith (tree : Option Tree) (s : State) : Emitted Unit :=
  (call (.bsOpen 1) s).thenEmits fun _ s1 =>
    match tree with
    | none =>
      ((call .bsMore s1).andThen fun m s2 => if respData m = 0 then decodeEnd .atRoot s2 else .declined s2).silent
    | some (.stray _ _) => (Ran.declined s1).silent
    | some (.leaf c _) => (decodeLeafLoop c (s1.bsRemain.toNat + 1) s1).andThen fun _ s2 => decodeEnd .atRoot s2
    | some (.internal w l r) => (decodeLoop (.internal w l r) (s1.bsRemain.toNat + 1) .atRoot s1).andThen decodeEnd

end Sys2Proof.Client
end

