-- ==== Sys2Proof/Safety.lean ====
section
/-! DEFINITION. What claims are stated in: the invariant of the block's state (spec/10_state.md R22, R27 to R29, R33, R36, R39 to R41), the
outcome of commands and runs (spec/70_reset_and_hazards.md R248), and what an instruction leaves unchanged. -/

namespace Sys2Proof.Machine

/-- The next state, where there is one. -/
def nextOf (r : Result) : Option State :=
  match r with
  | .next s => some s
  | .fault _ => none
  | .refused _ => none

/-- The response word the host got back, where the latest move was a command. -/
def State.response (s : State) : Option RespWord :=
  match s.reply with
  | .response w => some w
  | .nothing => none
  | .storageImage _ => none

/-- The order invariant of the OPL: ascending weight, unsigned (R33). -/
abbrev oplSorted (l : List Entry) : Prop := List.Pairwise (fun e f : Entry => e.weight.toNat ≤ f.weight.toNat) l

/-- The values `ERRLOG` can hold: 0 to 4 and 7 to 9 (R22). -/
abbrev errlogLegal (e : BitVec 4) : Prop := e.toNat ≤ 4 ∨ 7 ≤ e.toNat ∧ e.toNat ≤ 9

/-- What ties the registers to the Storage in each mode (R39, R40, R41). -/
abbrev modeInv (s : State) : Prop :=
  match s.bsMode with
  | .idle => s.bsNacc = 0
  | .write =>
    s.bsNacc.toNat = s.bsTotal.toNat % 8 ∧ s.storage.fileSize = Config.hdr + s.bsTotal.toNat / 8 ∧
      ∀ j < Config.hdr, s.storage.byte j = 0
  | .read => s.bsNacc = 0 ∧ Config.hdr ≤ s.storage.fileSize ∧ ceil8 s.bsLen.toNat ≤ s.storage.fileSize - Config.hdr

/-- The invariant of the block's state at every command boundary. -/
structure State.Inv (s : State) : Prop where
  /-- `PQ_COUNT` equals the number of entries (R29). -/
  count : s.pqCount.toNat = s.opl.length
  /-- At most `PQ_CAPACITY` entries (R32). -/
  capacity : s.opl.length ≤ Config.pqCapacity
  /-- The entries are in ascending order of weight (R33). -/
  sorted : oplSorted s.opl
  /-- `BS_ACC < 2^BS_NACC` (R22, R27). -/
  acc : s.bsAcc.toNat < 2 ^ s.bsNacc.toNat
  /-- `BS_REMAIN` is 0 to `BS_LEN` (R22, R40). -/
  remain : s.bsRemain.toNat ≤ s.bsLen.toNat
  /-- `ERRLOG` holds a code the block raises, or 0 (R22, R30). -/
  errlog : errlogLegal s.errlog
  /-- The Storage is well formed and within `STORE_MAX` (R35, R36). -/
  storage : Storage.wf s.storage
  /-- The mode's own invariant (R39 to R41). -/
  mode : modeInv s

/-- The host obeys R247 at this state: its next move does not touch the Storage while a session is open, and loads at most `STORE_MAX`
bytes. -/
abbrev hostObeys (s : State) : Prop :=
  match s.moves with
  | .loadStorage image :: _ => s.bsMode = .idle ∧ image.length ≤ Config.storeMax
  | .readStorage :: _ => s.bsMode = .idle
  | _ => True

/-! ## Runs -/

/-- Run commands in order, each from the state the one before it left; the final state and the response words, first command first. -/
def runCommands : List Instr → State → Option (State × List RespWord)
  | [], s => some (s, [])
  | i :: is, s =>
    match exec i s with
    | .next t =>
      match t.response, runCommands is t with
      | some w, some (u, ws) => some (u, w :: ws)
      | _, _ => none
    | .fault _ => none
    | .refused _ => none

/-- Perform host moves in order, each by the machine's step; the final state and what the host got back, first move first (R248). -/
def runMoves : List HostMove → State → Option (State × List HostReply)
  | [], s => some (s, [])
  | m :: ms, s =>
    match step { s with moves := m :: ms } with
    | .next t =>
      match runMoves ms t with
      | some (u, rs) => some (u, t.reply :: rs)
      | none => none
    | .fault _ => none
    | .refused _ => none

/-- Every response of a run had `STATUS = 0` (R248). -/
abbrev allComplete (ws : List RespWord) : Prop := ∀ w ∈ ws, respStatus w = 0

/-- A run ends clean: Idle, and every response had `STATUS = 0` (R248). -/
abbrev endsClean (s : State) (ws : List RespWord) : Prop := s.bsMode = .idle ∧ allComplete ws

/-! ## Outcomes of one command, and frames -/

/-- The command ends in the next state `t` with `STATUS = 0` and these results (R8, R77). -/
abbrev completesWith (r : Result) (t : State) (pay : BitVec 16) (data : BitVec 32) : Prop :=
  r = .next t ∧ t.reply = .response (respWord 0 pay data)

/-- The BSC's registers are the same (R23 to R28). -/
abbrev sameBsc (s t : State) : Prop :=
  t.bsMode = s.bsMode ∧ t.bsTotal = s.bsTotal ∧ t.bsLen = s.bsLen ∧ t.bsRemain = s.bsRemain ∧ t.bsAcc = s.bsAcc ∧
    t.bsNacc = s.bsNacc

/-- The OPL is the same (R29, R32). -/
abbrev sameOpl (s t : State) : Prop := t.opl = s.opl ∧ t.pqCount = s.pqCount

/-- Every byte of the Storage reads as before, and its length is the same (R35, R36). -/
abbrev sameStorage (s t : State) : Prop :=
  t.storage.fileSize = s.storage.fileSize ∧ ∀ a, t.storage.byte a = s.storage.byte a

/-- The host moves still to come are the same (R247). -/
abbrev sameMoves (s t : State) : Prop := t.moves = s.moves

/-- The command raises the fault kind `k` as R211 says: no change but `ERRLOG`, which takes the code if it was 0, and a response with the
code and `PAY = DATA = 0`. -/
abbrev raisesOnly (r : Result) (k : FaultKind) (s : State) : Prop :=
  ∃ t, r = .next t ∧ t.reply = .response (respWord (k.code.setWidth 8) 0 0) ∧
    t.errlog = (if s.errlog = 0 then k.code else s.errlog) ∧ sameBsc s t ∧ sameOpl s t ∧ t.storage = s.storage ∧ sameMoves s t

end Sys2Proof.Machine

namespace Sys2Proof.Client

/-! ## Client trees -/

/-- The symbols a tree holds with their counts, left before right (R163, R165). -/
def Tree.leaves : Tree → List FreqEntry
  | .leaf s w => [⟨s, w⟩]
  | .internal _ l r => l.leaves ++ r.leaves
  | .stray _ _ => []

/-- The entries a tree took over from an OPL that was not empty, left before right (R235). -/
def Tree.strays : Tree → List (Nat × Nat)
  | .leaf _ _ => []
  | .internal _ l r => l.strays ++ r.strays
  | .stray n w => [(n, w)]

/-- "weight of an Internal node = sum of its children's weights" (R163). -/
def Tree.weightsAdd : Tree → Prop
  | .leaf _ _ => True
  | .internal w l r => w = l.weight + r.weight ∧ l.weightsAdd ∧ r.weightsAdd
  | .stray _ _ => True

/-- The bits of an input under a code table, a symbol with no code giving none (R174). -/
def codedBits (table : CodeTable) (input : List Byte) : List Bool := input.flatMap fun b => (codeOf table b).getD []

end Sys2Proof.Client
end

