-- ==== Sys2Proof/Certificates/Slice0/Obligations.lean ====
section
/-! DEFINITION. The statements about the model, one `def Obligations.<Name> : Prop` each; each docstring names the rule of spec/ it
formalises. -/

open Sys2Proof Sys2Proof.Machine Sys2Proof.Client

/-! ## Command words -/

/-- R75, R76, R83, R90: decoding the word of a well-formed command gives that command, every operand kept. -/
def Obligations.DecodeOfEncodeIsTheCommand : Prop :=
  ∀ i : Instr, i.wf = true → decode (encode i) = .ok i

/-- R85, R90: an accepted word is the encoding of what it decodes to, and that command has legal operands. -/
def Obligations.AcceptedWordIsItsEncoding : Prop :=
  ∀ (w : CmdWord) (i : Instr), decode w = .ok i → i.wf = true ∧ encode i = w

/-- R85: for each row of the opcode map, the words the decoder accepts as that row's command are exactly those that satisfy the row's match,
mask and further condition. -/
def Obligations.LegalWordsAreExactlyTheRows : Prop :=
  ∀ (w : CmdWord) (r : OpRow), r ∈ opcodeTable → (r.selects w = true ↔ ∃ i, decode w = .ok i ∧ i.row = r)

/-- R83: "The rows are disjoint because their `OP` values differ". -/
def Obligations.OpcodeRowsAreDisjoint : Prop :=
  opcodeTable.Pairwise fun r q => ∀ w : CmdWord, ¬ (w &&& r.mask = r.matchBits ∧ w &&& q.mask = q.matchBits)

/-- R83, R88 (words of file 95, V5, V2, V1, V25, V20, V41, V37, V28, V30): one word of each command decodes to it. -/
def Obligations.WordsOfTheSpecDecode : Prop :=
  decode 0x1000000900000005#64 = .ok (.pqInsert 9 5) ∧ decode 0x1100000000000000#64 = .ok .pqRemoveMin ∧
  decode 0x1200000000000000#64 = .ok .pqSize ∧ decode 0x2001000000000000#64 = .ok (.bsOpen 1) ∧
  decode 0x21200000A5C3F00F#64 = .ok (.bsWrite 32 0xA5C3F00F#32) ∧ decode 0x2209000000000000#64 = .ok (.bsRead 9) ∧
  decode 0x2300000000000000#64 = .ok .bsMore ∧ decode 0x2400000000000000#64 = .ok .bsClose ∧
  decode 0x3008000000000000#64 = .ok (.rdReg 8)

/-- R58, R90, R246: a step whose next host move issues a word that decodes to `i` is `exec i` with that move taken off, and a command placed
by `withFetchWord` is the one the next step runs: that clause is the model's choice of how a program comes to run (log entry 10), no rule of the
spec. -/
def Obligations.StepRunsTheIssuedCommand : Prop :=
  (∀ (s : State) (w : CmdWord) (rest : List HostMove) (i : Instr), s.moves = .issue w :: rest → decode w = .ok i →
    step s = exec i { s with moves := rest }) ∧
  ∀ (s : State) (nbits w : Nat) (i : Instr), decodeTableWord nbits w = some i → step (s.withFetchWord nbits w) = exec i s

/-- R209: a word that is not a legal encoding responds `IllegalCommand` and does nothing else. -/
def Obligations.IllegalWordOnlyRespondsAndLogs : Prop :=
  ∀ (s : State) (w : CmdWord) (rest : List HostMove) (e : IllegalWord), s.moves = .issue w :: rest → decode w = .error e →
    raisesOnly (step s) .illegalCommand { s with moves := rest }

/-! ## OPL commands -/

/-- R101: `OP = 0x10` in format `PD` is PQ.INSERT, with any payload and weight; on a full list it raises `CapacityError`; otherwise it puts the entry after every entry of smaller weight up to the first of equal
or larger weight, before that one, counts it, and changes nothing else. -/
def Obligations.InsertPutsEntryBeforeEqualWeights : Prop :=
  ∀ (s : State) (payload : BitVec 16) (weight : BitVec 32),
    decode (mkWord 0x10#8 0 payload weight) = .ok (.pqInsert payload weight) ∧
    (s.pqCount.toNat = 256 → raisesOnly (exec (.pqInsert payload weight) s) .capacityError s) ∧
    (s.pqCount.toNat ≠ 256 → ∃ t before after, completesWith (exec (.pqInsert payload weight) s) t 0 0 ∧
      s.opl = before ++ after ∧ t.opl = before ++ ⟨payload, weight⟩ :: after ∧
      (∀ x ∈ before, x.weight.toNat < weight.toNat) ∧ (∀ x ∈ after.head?, weight.toNat ≤ x.weight.toNat) ∧
      t.pqCount = s.pqCount + 1 ∧ t.errlog = s.errlog ∧ sameBsc s t ∧ t.storage = s.storage ∧ sameMoves s t)

/-- R102: `OP = 0x11` in format `N` is PQ.REMOVEMIN; on an empty list it raises `EmptyCollectionError`; otherwise it removes the head and returns its payload and weight. -/
def Obligations.RemoveMinReturnsTheHead : Prop :=
  decode (mkWord 0x11#8 0 0 0) = .ok .pqRemoveMin ∧ ∀ s : State,
    (s.pqCount = 0 → raisesOnly (exec .pqRemoveMin s) .emptyCollectionError s) ∧
    (∀ e rest, s.pqCount ≠ 0 → s.opl = e :: rest → ∃ t, completesWith (exec .pqRemoveMin s) t e.payload e.weight ∧
      t.opl = rest ∧ t.pqCount = s.pqCount - 1 ∧ t.errlog = s.errlog ∧ sameBsc s t ∧ t.storage = s.storage ∧ sameMoves s t)

/-- R103: `OP = 0x12` in format `N` is PQ.SIZE; it returns `PQ_COUNT` and writes no state. -/
def Obligations.SizeReturnsTheCount : Prop :=
  decode (mkWord 0x12#8 0 0 0) = .ok .pqSize ∧
  ∀ s : State, ∃ t, completesWith (exec .pqSize s) t 0 (s.pqCount.setWidth 32) ∧ t.errlog = s.errlog ∧ sameOpl s t ∧
    sameBsc s t ∧ t.storage = s.storage ∧ sameMoves s t

/-- R105: if the entries are in ascending order of weight before a PQ.INSERT or a PQ.REMOVEMIN, they are after. -/
def Obligations.OplOrderIsKept : Prop :=
  ∀ (i : Instr) (s t : State), ((∃ p w, i = .pqInsert p w) ∨ i = .pqRemoveMin) → oplSorted s.opl → exec i s = .next t → oplSorted t.opl

/-- R102, R105, R107: as many PQ.REMOVEMIN as there are entries return them all in their order, which is ascending weight, and empty the OPL. -/
def Obligations.DrainReturnsTheEntriesInOrder : Prop :=
  ∀ s : State, s.Inv → ∃ t, runCommands (List.replicate s.opl.length .pqRemoveMin) s =
      some (t, s.opl.map fun e => respWord 0 e.payload e.weight) ∧
    t.opl = [] ∧ t.pqCount = 0 ∧ oplSorted s.opl

/-- R104, R107: entries put into an empty OPL come out, when it is drained, in ascending order of weight, and among equal weights in the reverse of
their insertion order. -/
def Obligations.InsertsThenDrainSortLastInFirstOut : Prop :=
  ∀ (s : State) (es : List Entry), s.opl = [] → s.pqCount = 0 → es.length ≤ 256 →
    ∃ t out, runCommands ((es.map fun e => Instr.pqInsert e.payload e.weight) ++ List.replicate es.length .pqRemoveMin) s =
        some (t, List.replicate es.length (respWord 0 0 0) ++ out.map fun e => respWord 0 e.payload e.weight) ∧
      t.opl = [] ∧ t.pqCount = 0 ∧ oplSorted out ∧ out.Perm es ∧
      ∀ w : BitVec 32, (out.filter fun e => e.weight = w) = (es.filter fun e => e.weight = w).reverse

/-- R100, R59: whatever it answers next, an OPL command leaves the BSC registers, every byte of the Storage and its length, and the moves to come;
PQ.SIZE leaves the OPL too. -/
def Obligations.OplCommandsFrame : Prop :=
  ∀ (i : Instr) (s t : State), ((∃ p w, i = .pqInsert p w) ∨ i = .pqRemoveMin ∨ i = .pqSize) → exec i s = .next t →
    sameBsc s t ∧ sameStorage s t ∧ sameMoves s t ∧ (i = .pqSize → sameOpl s t ∧ t.errlog = s.errlog)

/-! ## BSC commands -/

/-- R201: BS.OPEN with a mode of 2 to 255 raises `ConfigurationError` in any `BS_MODE`. -/
def Obligations.InvalidOpenModeRaisesConfiguration : Prop :=
  ∀ (s : State) (mode : BitVec 8), 2 ≤ mode.toNat → raisesOnly (exec (.bsOpen mode) s) .configurationError s

/-- R208: a BSC command in a `BS_MODE` that has no meaning for it raises `ProtocolError`. -/
def Obligations.WrongModeRaisesProtocol : Prop :=
  ∀ s : State,
    (s.bsMode ≠ .idle → ∀ mode : BitVec 8, mode.toNat < 2 → raisesOnly (exec (.bsOpen mode) s) .protocolError s) ∧
    (s.bsMode ≠ .write → ∀ (n : BitVec 8) (value : BitVec 32), n.toNat ≤ 32 →
      raisesOnly (exec (.bsWrite n value) s) .protocolError s) ∧
    (s.bsMode ≠ .read → (∀ n : BitVec 8, n.toNat ≤ 32 → raisesOnly (exec (.bsRead n) s) .protocolError s) ∧
      raisesOnly (exec .bsMore s) .protocolError s) ∧
    (s.bsMode = .idle → raisesOnly (exec .bsClose s) .protocolError s)

/-- R207: `CapacityError` is raised by PQ.INSERT on a full list, and by BS.WRITE when the new total would not fit the header field or its bytes
would not fit the Storage. -/
def Obligations.CapacityLimitsRaise : Prop :=
  ∀ s : State,
    (s.pqCount.toNat = 256 → ∀ (p : BitVec 16) (w : BitVec 32), raisesOnly (exec (.pqInsert p w) s) .capacityError s) ∧
    (s.bsMode = .write → ∀ (n : BitVec 8) (value : BitVec 32), n.toNat ≤ 32 →
      (4294967295 < s.bsTotal.toNat + n.toNat ∨ Config.storeMax < 4 + ceil8 (s.bsTotal.toNat + n.toNat)) →
      raisesOnly (exec (.bsWrite n value) s) .capacityError s)

/-- R122: BS.OPEN in write mode, Idle: the Storage's contents are gone, `fileSize` is 4, the four header bytes are 0, `BS_TOTAL`, `BS_ACC` and
`BS_NACC` are 0, the mode is Write, and `BS_LEN`, `BS_REMAIN` and all else are as they were. -/
def Obligations.OpenWriteStartsAnEmptyFile : Prop :=
  ∀ s : State, s.bsMode = .idle → ∃ t, completesWith (exec (.bsOpen 0) s) t 0 0 ∧ t.storage.bytes = [0, 0, 0, 0] ∧
    t.storage.fileSize = 4 ∧ t.bsMode = .write ∧ t.bsTotal = 0 ∧ t.bsAcc = 0 ∧ t.bsNacc = 0 ∧ t.bsLen = s.bsLen ∧
    t.bsRemain = s.bsRemain ∧ sameOpl s t ∧ t.errlog = s.errlog ∧ sameMoves s t

/-- R123: BS.OPEN in read mode, Idle: it completes exactly on an acceptable Storage (at least four bytes, and the payload the header declares fits
behind it, in unbounded integers), with `BS_LEN` and `BS_REMAIN` the declared length; on any other it raises `CorruptInputError`. -/
def Obligations.OpenReadChecksTheHeader : Prop :=
  ∀ s : State, s.bsMode = .idle →
    (s.storage.acceptable → ∃ t, completesWith (exec (.bsOpen 1) s) t 0 0 ∧ t.bsMode = .read ∧
      t.bsLen.toNat = s.storage.declaredLen ∧ t.bsRemain.toNat = s.storage.declaredLen ∧ t.storage = s.storage ∧
      t.bsTotal = s.bsTotal ∧ t.bsAcc = s.bsAcc ∧ t.bsNacc = s.bsNacc ∧ sameOpl s t ∧ t.errlog = s.errlog ∧ sameMoves s t) ∧
    (¬ s.storage.acceptable → raisesOnly (exec (.bsOpen 1) s) .corruptInputError s)

/-- R124, with R39 for where the pending bits and the flushed bytes are: `OP = 0x21` in format `AD` with a count of at most 32 is BS.WRITE; outside Write mode it raises `ProtocolError`, over the limits `CapacityError`; otherwise it appends the low-order `n` bits of the value, most significant first, keeps fewer than eight pending, flushes the rest, and
changes nothing else. -/
def Obligations.WriteAppendsTheLowOrderBits : Prop :=
  ∀ (s : State) (n : BitVec 8) (value : BitVec 32), n.toNat ≤ 32 →
    decode (mkWord 0x21#8 n 0 value) = .ok (.bsWrite n value) ∧
    (s.bsMode ≠ .write → raisesOnly (exec (.bsWrite n value) s) .protocolError s) ∧
    (s.bsMode = .write → 4294967295 < s.bsTotal.toNat + n.toNat → raisesOnly (exec (.bsWrite n value) s) .capacityError s) ∧
    (s.bsMode = .write → Config.storeMax < 4 + ceil8 (s.bsTotal.toNat + n.toNat) →
      raisesOnly (exec (.bsWrite n value) s) .capacityError s) ∧
    (s.Inv → s.bsMode = .write → s.bsTotal.toNat + n.toNat ≤ 4294967295 →
      4 + ceil8 (s.bsTotal.toNat + n.toNat) ≤ Config.storeMax → ∃ t, completesWith (exec (.bsWrite n value) s) t 0 0 ∧
      t.bsTotal.toNat = s.bsTotal.toNat + n.toNat ∧ t.bsNacc.toNat = (s.bsNacc.toNat + n.toNat) % 8 ∧
      t.bsAcc.toNat = (s.bsAcc.toNat * 2 ^ n.toNat + value.toNat % 2 ^ n.toNat) % 2 ^ ((s.bsNacc.toNat + n.toNat) % 8) ∧
      t.appended = s.appended ++ bitsOf value.toNat n.toNat ∧
      t.storage.fileSize = s.storage.fileSize + (s.bsNacc.toNat + n.toNat) / 8 ∧
      (∀ a < s.storage.fileSize, t.storage.byte a = s.storage.byte a) ∧ t.bsMode = .write ∧ t.bsLen = s.bsLen ∧
      t.bsRemain = s.bsRemain ∧ sameOpl s t ∧ t.errlog = s.errlog ∧ sameMoves s t)

/-- R134, R124: the frame of BS.WRITE in every state: the flushed bytes lie from offset `4 + BS_TOTAL div 8` on, `(BS_NACC + n) div 8` of them; every
other byte, the mode, `BS_LEN`, `BS_REMAIN` and the OPL are unchanged. -/
def Obligations.WriteFrame : Prop :=
  ∀ (s t : State) (n : BitVec 8) (value : BitVec 32), exec (.bsWrite n value) s = .next t →
    (∀ a, a < 4 + s.bsTotal.toNat / 8 ∨ 4 + s.bsTotal.toNat / 8 + (s.bsNacc.toNat + n.toNat) / 8 ≤ a →
      t.storage.byte a = s.storage.byte a) ∧
    t.bsMode = s.bsMode ∧ t.bsLen = s.bsLen ∧ t.bsRemain = s.bsRemain ∧ sameOpl s t ∧ sameMoves s t

/-- R125: `OP = 0x22` in format `A` with a count of at most 32 is BS.READ: the faults in their order, and otherwise the next `n` payload bits as a number, first bit most significant, counted off; the
Storage and every other register are unchanged. -/
def Obligations.ReadReturnsTheNextBits : Prop :=
  ∀ (s : State) (n : BitVec 8), n.toNat ≤ 32 →
    decode (mkWord 0x22#8 n 0 0) = .ok (.bsRead n) ∧
    (s.bsMode ≠ .read → raisesOnly (exec (.bsRead n) s) .protocolError s) ∧
    (s.bsMode = .read → s.bsRemain.toNat < n.toNat → raisesOnly (exec (.bsRead n) s) .truncatedStreamError s) ∧
    (s.bsMode = .read → n.toNat ≤ s.bsRemain.toNat → s.bsRemain.toNat ≤ s.bsLen.toNat →
      s.storage.fileSize < 4 + ceil8 (s.bsLen.toNat - s.bsRemain.toNat + n.toNat) →
      raisesOnly (exec (.bsRead n) s) .truncatedStreamError s) ∧
    (s.bsMode = .read → n.toNat ≤ s.bsRemain.toNat → s.bsRemain.toNat ≤ s.bsLen.toNat →
      4 + ceil8 (s.bsLen.toNat - s.bsRemain.toNat + n.toNat) ≤ s.storage.fileSize →
      ∃ t, completesWith (exec (.bsRead n) s) t 0
          (BitVec.ofNat 32 (bitsValue (s.storage.payloadBits (s.bsLen.toNat - s.bsRemain.toNat) n.toNat))) ∧
        t.bsRemain.toNat = s.bsRemain.toNat - n.toNat ∧ t.bsMode = .read ∧ t.bsTotal = s.bsTotal ∧ t.bsLen = s.bsLen ∧
        t.bsAcc = s.bsAcc ∧ t.bsNacc = s.bsNacc ∧ t.storage = s.storage ∧ sameOpl s t ∧ t.errlog = s.errlog ∧ sameMoves s t)

/-- R125, R210, R40: in a state that meets the invariant the Storage test of BS.READ never fires: a read of at most the remaining bits completes. -/
def Obligations.ReadWithinTheDeclaredLengthCompletes : Prop :=
  ∀ (s : State) (n : BitVec 8), s.Inv → s.bsMode = .read → n.toNat ≤ 32 → n.toNat ≤ s.bsRemain.toNat →
    ∃ t, completesWith (exec (.bsRead n) s) t 0
      (BitVec.ofNat 32 (bitsValue (s.storage.payloadBits (s.bsLen.toNat - s.bsRemain.toNat) n.toNat)))

/-- R126: `OP = 0x23` in format `N` is BS.MORE; outside Read mode it raises `ProtocolError`; in Read mode it returns 1 when `BS_REMAIN > 0` and 0 otherwise, and writes no state. -/
def Obligations.MoreReportsWhetherBitsRemain : Prop :=
  decode (mkWord 0x23#8 0 0 0) = .ok .bsMore ∧ ∀ s : State,
    (s.bsMode ≠ .read → raisesOnly (exec .bsMore s) .protocolError s) ∧
    (s.bsMode = .read → ∃ t, completesWith (exec .bsMore s) t 0 (if 0 < s.bsRemain.toNat then 1 else 0) ∧
      sameBsc s t ∧ sameOpl s t ∧ t.errlog = s.errlog ∧ t.storage = s.storage ∧ sameMoves s t)

/-- R128, with R39 for the state it starts from: BS.CLOSE in write mode writes the pending bits high and zeros low at `4 + BS_TOTAL div 8` when there are any,
then the big-endian `BS_TOTAL` at offsets 0 to 3, keeps every other byte, and leaves Idle with nothing pending and `BS_TOTAL` kept. -/
def Obligations.CloseWritePadsAndWritesTheHeader : Prop :=
  ∀ s : State, s.Inv → s.bsMode = .write → ∃ t, completesWith (exec .bsClose s) t 0 0 ∧
    (∀ j < 4, (t.storage.byte j).toNat = s.bsTotal.toNat / 2 ^ (8 * (3 - j)) % 256) ∧
    (0 < s.bsNacc.toNat →
      (t.storage.byte (4 + s.bsTotal.toNat / 8)).toNat = s.bsAcc.toNat * 2 ^ (8 - s.bsNacc.toNat)) ∧
    (∀ a, 4 ≤ a → (0 < s.bsNacc.toNat → a ≠ 4 + s.bsTotal.toNat / 8) → t.storage.byte a = s.storage.byte a) ∧
    t.storage.fileSize = 4 + ceil8 s.bsTotal.toNat ∧ t.bsMode = .idle ∧ t.bsAcc = 0 ∧ t.bsNacc = 0 ∧ t.bsTotal = s.bsTotal ∧
    t.bsLen = s.bsLen ∧ t.bsRemain = s.bsRemain ∧ sameOpl s t ∧ t.errlog = s.errlog ∧ sameMoves s t

/-- R79, R128, R132: what BS.CLOSE in write mode leaves is `BitFile` of the bits appended in the session, a canonical BitFile. -/
def Obligations.CloseLeavesTheBitFileOfTheSession : Prop :=
  ∀ s : State, s.Inv → s.bsMode = .write → ∃ t, exec .bsClose s = .next t ∧ t.storage.bytes = bitFile s.appended ∧
    t.storage.canonical ∧ s.appended.length = s.bsTotal.toNat

/-- R129: BS.CLOSE in read mode changes no register but `BS_MODE`, and writes nothing to the Storage. -/
def Obligations.CloseReadOnlyReleases : Prop :=
  ∀ s : State, s.bsMode = .read → ∃ t, completesWith (exec .bsClose s) t 0 0 ∧ t.bsMode = .idle ∧ t.bsTotal = s.bsTotal ∧
    t.bsLen = s.bsLen ∧ t.bsRemain = s.bsRemain ∧ t.bsAcc = s.bsAcc ∧ t.bsNacc = s.bsNacc ∧ t.storage = s.storage ∧ sameOpl s t ∧
    t.errlog = s.errlog ∧ sameMoves s t

/-- R127 to R129, R134: the frame of BS.CLOSE in every state: in write mode it stores to the header offsets 0 to 3 and, when bits are pending, to
`4 + BS_TOTAL div 8`; every other byte, and in the other modes every byte, is unchanged; `BS_TOTAL`, `BS_LEN`, `BS_REMAIN` and the OPL are unchanged. -/
def Obligations.CloseFrame : Prop :=
  ∀ s t : State, exec .bsClose s = .next t →
    (∀ a, ¬ (s.bsMode = .write ∧ (a < 4 ∨ 0 < s.bsNacc.toNat ∧ a = 4 + s.bsTotal.toNat / 8)) →
      t.storage.byte a = s.storage.byte a) ∧
    t.bsTotal = s.bsTotal ∧ t.bsLen = s.bsLen ∧ t.bsRemain = s.bsRemain ∧ sameOpl s t ∧ sameMoves s t

/-- R121 to R123: the frame of BS.OPEN in every state: it touches the Storage only where it completes in write mode; `BS_LEN` and `BS_REMAIN` change only in
read mode, `BS_TOTAL`, `BS_ACC` and `BS_NACC` only in write mode; the OPL never. -/
def Obligations.OpenFrame : Prop :=
  ∀ (s t : State) (mode : BitVec 8), exec (.bsOpen mode) s = .next t →
    (¬ (mode = 0 ∧ s.bsMode = .idle) → sameStorage s t ∧ t.bsTotal = s.bsTotal ∧ t.bsAcc = s.bsAcc ∧ t.bsNacc = s.bsNacc) ∧
    (¬ (mode = 1 ∧ s.bsMode = .idle) → t.bsLen = s.bsLen ∧ t.bsRemain = s.bsRemain) ∧
    (s.bsMode ≠ .idle → t.bsMode = s.bsMode) ∧ sameOpl s t ∧ sameMoves s t

/-- R125, R126, R150: the frame of BS.READ, BS.MORE and RDREG in every state: no byte of the Storage, no OPL entry and no BSC register changes, but
`BS_REMAIN` under BS.READ. -/
def Obligations.ReadingCommandsFrame : Prop :=
  ∀ (i : Instr) (s t : State), ((∃ n, i = .bsRead n) ∨ i = .bsMore ∨ ∃ r, i = .rdReg r) → exec i s = .next t →
    sameStorage s t ∧ sameOpl s t ∧ sameMoves s t ∧ t.bsMode = s.bsMode ∧ t.bsTotal = s.bsTotal ∧ t.bsLen = s.bsLen ∧
    t.bsAcc = s.bsAcc ∧ t.bsNacc = s.bsNacc ∧ ((∀ n, i ≠ .bsRead n) → t.bsRemain = s.bsRemain)

/-! ## RDREG -/

/-- R150: `OP = 0x30` in format `A` with a number of at most 8 is RDREG, and with a larger one a word that is no command and raises
`IllegalCommand`; RDREG returns the value of register `N`, zero-extended, `x[8]` being `fileSize`, and writes no state. -/
def Obligations.RdregReturnsTheRegister : Prop :=
  ∀ (s : State) (num : BitVec 8),
    (num.toNat ≤ 8 → decode (mkWord 0x30#8 num 0 0) = .ok (.rdReg num)) ∧
    (8 < num.toNat → (∃ e, decode (mkWord 0x30#8 num 0 0) = .error e) ∧ raisesOnly (runWord (mkWord 0x30#8 num 0 0) s) .illegalCommand s) ∧
    ∀ v : BitVec 32,
      (num.toNat, v) ∈ [(0, s.bsMode.code.setWidth 32), (1, s.bsTotal), (2, s.bsLen), (3, s.bsRemain), (4, s.bsAcc.setWidth 32),
        (5, s.bsNacc.setWidth 32), (6, s.pqCount.setWidth 32), (7, s.errlog.setWidth 32), (8, BitVec.ofNat 32 s.storage.fileSize)] →
      ∃ t, completesWith (exec (.rdReg num) s) t 0 v ∧ sameBsc s t ∧ sameOpl s t ∧ t.errlog = s.errlog ∧ t.storage = s.storage ∧
        sameMoves s t

/-! ## Faults and responses -/

/-- R211: a command whose response has a nonzero `STATUS` changed nothing but `ERRLOG`, which took the code if it was 0, and returned
`PAY = DATA = 0`. -/
def Obligations.FaultChangesNothingButErrlog : Prop :=
  ∀ (i : Instr) (s t : State) (w : RespWord), exec i s = .next t → t.reply = .response w → respStatus w ≠ 0 →
    sameBsc s t ∧ sameOpl s t ∧ t.storage = s.storage ∧ sameMoves s t ∧ respPay w = 0 ∧ respData w = 0 ∧
    (s.errlog = 0 → t.errlog.setWidth 8 = respStatus w) ∧ (s.errlog ≠ 0 → t.errlog = s.errlog)

/-- R77, R200, R205, R206: every command that answers next produces one response word: reserved bits zero, `STATUS` 0 to 4 or 7 to 9, `PAY` zero but for
PQ.REMOVEMIN. -/
def Obligations.EveryCommandGivesOneResponse : Prop :=
  ∀ (i : Instr) (s t : State), exec i s = .next t → ∃ w, t.reply = .response w ∧ respReserved w = 0 ∧
    ((respStatus w).toNat ≤ 4 ∨ 7 ≤ (respStatus w).toNat ∧ (respStatus w).toNat ≤ 9) ∧ (i ≠ .pqRemoveMin → respPay w = 0)

/-- R30: a command that completes leaves `ERRLOG`. With R211 this makes it the code of the first fault since reset: a nonzero value never changes. -/
def Obligations.ErrlogKeepsTheFirstCode : Prop :=
  ∀ (i : Instr) (s t : State), exec i s = .next t →
    (∀ w, t.reply = .response w → respStatus w = 0 → t.errlog = s.errlog) ∧ (s.errlog ≠ 0 → t.errlog = s.errlog)

/-- R30: "no command's behaviour depends on it": with another `ERRLOG` a command other than RDREG does the same in every field but `ERRLOG`. -/
def Obligations.ErrlogInfluencesNoCommand : Prop :=
  ∀ (i : Instr) (s t : State) (e : BitVec 4), (∀ r, i ≠ .rdReg r) → exec i s = .next t →
    ∃ e', exec i { s with errlog := e } = .next { t with errlog := e' }

/-- R22, R36: "Each is written only by the commands its own rule names": which commands can change which register, and which the Storage's length;
`ERRLOG` changes only under a command that faulted. -/
def Obligations.RegistersAreWrittenOnlyByTheirCommands : Prop :=
  ∀ (i : Instr) (s t : State), exec i s = .next t →
    (t.bsMode ≠ s.bsMode → i = .bsOpen 0 ∨ i = .bsOpen 1 ∨ i = .bsClose) ∧
    (t.bsTotal ≠ s.bsTotal → i = .bsOpen 0 ∨ ∃ n v, i = .bsWrite n v) ∧ (t.bsLen ≠ s.bsLen → i = .bsOpen 1) ∧
    (t.bsRemain ≠ s.bsRemain → i = .bsOpen 1 ∨ ∃ n, i = .bsRead n) ∧
    (t.bsAcc ≠ s.bsAcc ∨ t.bsNacc ≠ s.bsNacc → i = .bsOpen 0 ∨ (∃ n v, i = .bsWrite n v) ∨ i = .bsClose) ∧
    (t.pqCount ≠ s.pqCount ∨ t.opl ≠ s.opl → (∃ p w, i = .pqInsert p w) ∨ i = .pqRemoveMin) ∧
    (t.errlog ≠ s.errlog → s.errlog = 0 ∧ ∃ w, t.reply = .response w ∧ respStatus w ≠ 0) ∧
    (t.storage.fileSize ≠ s.storage.fileSize → i = .bsOpen 0 ∧ t.storage.fileSize = 4 ∨
      ((∃ n v, i = .bsWrite n v) ∨ i = .bsClose) ∧ s.storage.fileSize < t.storage.fileSize)

/-! ## Reset, the host's moves, the invariant -/

/-- R231: the reset state: every register but `x[8]` is 0 and the OPL is the empty sequence. The Storage in it is the model's choice (log entry 1) and no
part of this. -/
def Obligations.ResetStateIsZero : Prop :=
  State.reset.bsMode = .idle ∧ State.reset.bsTotal = 0 ∧ State.reset.bsLen = 0 ∧ State.reset.bsRemain = 0 ∧ State.reset.bsAcc = 0 ∧
  State.reset.bsNacc = 0 ∧ State.reset.pqCount = 0 ∧ State.reset.errlog = 0 ∧ State.reset.opl = []

/-- R231, R232, R247: applying reset, in every state, puts every register at 0, empties the OPL, keeps the Storage's bytes and length, and gives back no
response word. -/
def Obligations.ResetMoveClearsTheBlockAndKeepsTheStorage : Prop :=
  ∀ (s : State) (rest : List HostMove), s.moves = .reset :: rest → ∃ t, step s = .next t ∧ t.bsMode = .idle ∧ t.bsTotal = 0 ∧
    t.bsLen = 0 ∧ t.bsRemain = 0 ∧ t.bsAcc = 0 ∧ t.bsNacc = 0 ∧ t.pqCount = 0 ∧ t.errlog = 0 ∧ t.opl = [] ∧ t.storage = s.storage ∧
    t.reply = .nothing ∧ t.moves = rest

/-- R247, R63: while Idle the host loads any image of at most `STORE_MAX` bytes: the Storage then holds exactly it, a read of the Storage gives exactly
those bytes back, and no register or OPL entry changes. -/
def Obligations.HostLoadThenReadGivesTheImage : Prop :=
  ∀ (s : State) (image : List Byte) (rest : List HostMove), s.moves = .loadStorage image :: .readStorage :: rest → s.bsMode = .idle →
    image.length ≤ Config.storeMax → ∃ t u, step s = .next t ∧ t.storage.bytes = image ∧ t.storage.fileSize = image.length ∧
      Storage.wf t.storage ∧ sameBsc s t ∧ sameOpl s t ∧ t.errlog = s.errlog ∧ step t = .next u ∧ u.reply = .storageImage image ∧
      sameBsc s u ∧ sameOpl s u ∧ u.errlog = s.errlog ∧ u.storage = t.storage ∧ u.moves = rest

/-- The model's choice (log entry 5; U8 and R247 make these no moves): a host move on the Storage while a session is open, or one that loads more than
`STORE_MAX` bytes, stops the run under a name of its own. -/
def Obligations.ForbiddenStorageMovesStop : Prop :=
  ∀ (s : State) (rest : List HostMove) (image : List Byte),
    (s.bsMode ≠ .idle → s.moves = .loadStorage image :: rest → step s = .fault .hostStorageInSession) ∧
    (s.bsMode ≠ .idle → s.moves = .readStorage :: rest → step s = .fault .hostStorageInSession) ∧
    (s.bsMode = .idle → Config.storeMax < image.length → s.moves = .loadStorage image :: rest →
      step s = .fault .hostStorageTooLong)

/-- R246, R248: each step takes exactly one move off the host's sequence, and with none left nothing changes (the waiting step is the model's choice, log
entry 3). -/
def Obligations.EachStepTakesOneHostMove : Prop :=
  ∀ s t : State, step s = .next t → t.moves = s.moves.tail ∧ (s.moves = [] → t = s)

/-- R27 to R29, R33, R39 to R41: the invariant of the block's state holds at reset. -/
def Obligations.ResetMeetsTheInvariant : Prop := State.reset.Inv

/-- R22, R27 to R29, R33, R36, R39 to R41: every step, whatever the host's move, keeps the invariant: the registers in their legal values and tied to the
Storage as each mode says, the OPL sorted and counted, the Storage canonical and within `STORE_MAX`. -/
def Obligations.EveryStepKeepsTheInvariant : Prop :=
  ∀ s t : State, s.Inv → step s = .next t → t.Inv

/-- R10, R245: the block is never stuck: from every state that meets the invariant, a host move that R247 allows (any of the `2^64` words among them)
answers a next state, so no fault or refusal of the model is ever reached. -/
def Obligations.TheBlockIsNeverStuck : Prop :=
  ∀ s : State, s.Inv → hostObeys s → ∃ t, step s = .next t

/-! ## Laws of whole sessions -/

/-- R131, R132: a write session opened while Idle that appends `n_k` bits by each BS.WRITE and is closed completes every command, holds `L` the sum of the
counts in `BS_TOTAL` and in the header, and leaves `BitFile` of the bits in order: it does not depend on how they were split. -/
def Obligations.WriteSessionLeavesTheBitFile : Prop :=
  ∀ (s : State) (ws : List (BitVec 8 × BitVec 32)), s.Inv → s.bsMode = .idle → (∀ p ∈ ws, p.1.toNat ≤ 32) →
    (ws.map fun p => p.1.toNat).sum ≤ 4294967295 →
    ∃ t rs, runCommands (.bsOpen 0 :: ws.map (fun p => .bsWrite p.1 p.2) ++ [.bsClose]) s = some (t, rs) ∧ endsClean t rs ∧
      t.bsTotal.toNat = (ws.map fun p => p.1.toNat).sum ∧ t.storage.declaredLen = (ws.map fun p => p.1.toNat).sum ∧
      t.storage.bytes = bitFile (ws.flatMap fun p => bitsOf p.2.toNat p.1.toNat) ∧ t.storage.canonical

/-- R133: over a Storage that holds `BitFile(b)`, a read session opens without fault with `BS_LEN = L`, BS.READ commands whose counts sum to at most `L`
return consecutive slices of `b` as numbers, first bit most significant, and BS.MORE then returns 1 exactly while the counts sum to less than `L`. -/
def Obligations.ReadSessionReturnsTheSlices : Prop :=
  ∀ (s : State) (b : List Bool) (ns : List (BitVec 8)), s.bsMode = .idle → b.length ≤ 4294967295 →
    s.storage.bytes = bitFile b → (∀ n ∈ ns, n.toNat ≤ 32) → (ns.map fun n => n.toNat).sum ≤ b.length →
    ∃ t rs m, runCommands (.bsOpen 1 :: ns.map Instr.bsRead ++ [.bsMore]) s = some (t, respWord 0 0 0 :: rs ++ [m]) ∧
      t.bsLen.toNat = b.length ∧ t.bsRemain.toNat = b.length - (ns.map fun n => n.toNat).sum ∧
      m = respWord 0 0 (if (ns.map fun n => n.toNat).sum < b.length then 1 else 0) ∧ rs.length = ns.length ∧
      ∀ k, k < ns.length → rs.getD k 0 = respWord 0 0 (BitVec.ofNat 32 (bitsValue
        ((b.drop ((ns.take k).map fun n => n.toNat).sum).take (ns.getD k 0).toNat)))

/-- R59: for an OPL command and a BSC command that both complete without fault, running them in either order gives the same registers, entries, Storage
and the same two responses. -/
def Obligations.OplAndBscCommandsCommute : Prop :=
  ∀ (p b : Instr) (s t u : State) (x y : RespWord),
    ((∃ pay w, p = .pqInsert pay w) ∨ p = .pqRemoveMin ∨ p = .pqSize) →
    ((∃ m, b = .bsOpen m) ∨ (∃ n v, b = .bsWrite n v) ∨ (∃ n, b = .bsRead n) ∨ b = .bsMore ∨ b = .bsClose) →
    exec p s = .next t → t.reply = .response x → respStatus x = 0 →
    exec b t = .next u → u.reply = .response y → respStatus y = 0 →
    ∃ t' u', exec b s = .next t' ∧ t'.reply = .response y ∧ exec p t' = .next u' ∧ u'.reply = .response x ∧
      { u' with reply := u.reply } = u

/-- R248, R30: from `ERRLOG = 0` and with no reset among the moves, a run of host moves, any of the `2^64` words among them, ends with `ERRLOG = 0`
exactly when every response had `STATUS = 0`. -/
def Obligations.ErrlogZeroExactlyWhenEveryCommandCompleted : Prop :=
  ∀ (ms : List HostMove) (s t : State) (rs : List HostReply), s.errlog = 0 → (∀ m ∈ ms, m ≠ .reset) → runMoves ms s = some (t, rs) →
    (t.errlog = 0 ↔ ∀ w, .response w ∈ rs → respStatus w = 0)

/-- R89, R175, R132: BS.WRITECODE of a code of any length appends the whole code, as if it were written in one piece. -/
def Obligations.WriteCodeAppendsTheWholeCode : Prop :=
  ∀ (s : State) (code : List Bool), s.Inv → s.bsMode = .write → s.bsTotal.toNat + code.length ≤ 4294967295 →
    ∃ t ws, runCommands (bsWriteCode code) s = some (t, ws) ∧ allComplete ws ∧ t.appended = s.appended ++ code ∧ t.bsMode = .write ∧
      t.bsTotal.toNat = s.bsTotal.toNat + code.length

/-! ## Client procedures -/

/-- R164, R173, R181: the codes of one code table are prefix-free. -/
def Obligations.CodeTableIsPrefixFree : Prop :=
  ∀ tree : Tree, (codeTable tree).Pairwise fun p q => ¬ p.2 <+: q.2 ∧ ¬ q.2 <+: p.2

/-- R168, R163, R167, R172: from an empty OPL the Tree Builder completes on every nonempty input within the spec's limit: the tree holds exactly the
symbols of the input with their counts, every Internal weight is the sum of its children's, the root's is the input length, and the OPL is empty again;
the BSC and the Storage are untouched. -/
def Obligations.BuilderMakesOneTreeOfTheInput : Prop :=
  ∀ (input : List Byte) (s : State), s.Inv → s.opl = [] → input ≠ [] → input.length ≤ Config.maxInput →
    ∃ root t, buildTree (frequencies input) s = .done root t ∧ root.leaves.Perm (frequencies input) ∧ root.strays = [] ∧ root.weightsAdd ∧
      root.weight = input.length ∧ t.opl = [] ∧ t.pqCount = 0 ∧ sameBsc s t ∧ t.storage = s.storage

/-- R181, "Bit accounting", R131, R174: what a whole encode of a nonempty input leaves is `BitFile` of the codes of its symbols in order, so that the
header's declared length is the sum of their lengths. Where an entry left in the OPL gave a symbol two codes, the one written is the model's choice (log
entry 18). -/
def Obligations.EncodeLeavesTheBitFileOfTheCodes : Prop :=
  ∀ (input : List Byte) (s t : State) (root : Tree), s.Inv → encodeInput input s = .done (some root) t →
    t.storage.bytes = bitFile (codedBits (codeTable root) input) ∧
    t.storage.declaredLen = (input.map fun b => ((codeOf (codeTable root) b).getD []).length).sum ∧ t.bsMode = .idle

/-- R181, "Round-trip" and the empty input's: from an Idle BSC and an empty OPL every input of at most `(2^32 - 1) / 255 = 16843009` bytes encodes (no code has
more than 255 bits, R173), and decoding with the same tree gives it back. -/
def Obligations.EveryInputUpTo16843009BytesRoundTrips : Prop :=
  ∀ (input : List Byte) (s : State), s.Inv → s.bsMode = .idle → s.opl = [] → input.length ≤ 16843009 →
    ∃ tree t u, encodeInput input s = .done tree t ∧ decodeWith tree t = ⟨input, .done () u⟩

/-- R181, "Round-trip", with R179's shared tree and R169's empty input: what a whole encode wrote, a decode with the same tree gives back. -/
def Obligations.DecodeReturnsTheEncodedInput : Prop :=
  ∀ (input : List Byte) (s t : State) (tree : Option Tree), s.Inv → encodeInput input s = .done tree t →
    ∃ u, decodeWith tree t = ⟨input, .done () u⟩

/-- R181, "Corruption detection": truncating a BitFile's payload while leaving the header unchanged makes BS.OPEN in read mode raise
`CorruptInputError`. -/
def Obligations.TruncatedPayloadIsDetected : Prop :=
  ∀ (s : State) (b : List Bool) (n : Nat), s.bsMode = .idle → b.length ≤ 4294967295 → 4 ≤ n → n < (bitFile b).length →
    s.storage.bytes = (bitFile b).take n → raisesOnly (exec (.bsOpen 1) s) .corruptInputError s

/-- R235, with R168 for the build: entries already in the OPL are merged into the tree. It holds the symbols of the input with their counts and, as
nodes that hold no symbol, exactly the entries that were there before; the OPL is empty after. The premises are that the OPL has room for the leaves, that the
weights fit 32 bits, and that no old payload is a node number of this build (R172: the symbols of the input, and 256 to 510). That such a node holds
no symbol is the model's choice (log entry 15). -/
def Obligations.LeftoverEntriesAreMergedIntoTheTree : Prop :=
  ∀ (input : List Byte) (s : State), s.Inv → input ≠ [] → s.opl.length + (frequencies input).length ≤ Config.pqCapacity →
    (s.opl.map fun e => e.weight.toNat).sum + input.length ≤ Config.maxInput →
    (∀ e ∈ s.opl, 511 ≤ e.payload.toNat ∨ e.payload.toNat < 256 ∧ input.count (BitVec.ofNat 8 e.payload.toNat) = 0) →
    ∃ root t, buildTree (frequencies input) s = .done root t ∧ root.leaves.Perm (frequencies input) ∧
      root.strays.Perm (s.opl.map fun e => (e.payload.toNat, e.weight.toNat)) ∧ root.weightsAdd ∧
      root.weight = (s.opl.map fun e => e.weight.toNat).sum + input.length ∧ t.opl = [] ∧ t.pqCount = 0 ∧ sameBsc s t ∧
      t.storage = s.storage

/-- The model's choice (log entry 9): `exec` on a command term that no legal word carries, a bit count above 32 or a register number above 8, raises
`IllegalCommand` and does nothing else, as R84 and R209 say of the word. -/
def Obligations.TermsNoWordCarriesRaiseIllegalCommand : Prop :=
  ∀ (i : Instr) (s : State), i.wf = false → raisesOnly (exec i s) .illegalCommand s

/-- R176, V34: when the declared bits end inside a code, a nonempty proper part of it being left over, the Decoder has emitted the symbols of the whole codes before
it, closes, and ends in `TruncatedStreamError`; the fault is the client's and the block's `ERRLOG` stays. -/
def Obligations.DecodeEndingInsideACodeKeepsTheSymbolsEmitted : Prop :=
  ∀ (root : Tree) (input : List Byte) (b : Byte) (code part : List Bool) (s : State), s.bsMode = .idle →
    (∀ c ∈ input, (codeOf (codeTable root) c).isSome = true) → (b, code) ∈ codeTable root → part <+: code → part ≠ [] → part ≠ code →
    (codedBits (codeTable root) input ++ part).length ≤ 4294967295 →
    s.storage.bytes = bitFile (codedBits (codeTable root) input ++ part) →
    ∃ u, decodeWith (some root) s = ⟨input, .failed .truncatedStreamError u⟩ ∧ u.bsMode = .idle ∧ u.errlog = s.errlog ∧
      u.storage = s.storage
end

