-- ==== Sys2Proof/Laws/Memory.lean ====
section
/-! SUPPORT. What the Storage's operations do: reads after writes, the canonical form, runs of writes, loading and reading an image. -/

namespace Sys2Proof.Machine

/-! ## Listed bytes -/

theorem Memory.get_set_other (m : Memory) (x y : Nat) (v : Byte) (h : y ≠ x) :
    Memory.get (Memory.set m x v) y = Memory.get m y := by
  induction m with
  | nil => simp only [Memory.set]; split <;> simp [Memory.get, Ne.symm h]
  | cons p rest ih =>
    obtain ⟨a, b⟩ := p
    simp only [Memory.set]
    split
    · split <;> simp [Memory.get, Ne.symm h]
    · split
      · subst_vars
        split <;> simp [Memory.get, Ne.symm h]
      · simp [Memory.get, ih]

theorem Memory.get_of_lt (m : Memory) (x : Nat) (h : ∀ p ∈ m, x < p.1) : Memory.get m x = unlistedByte := by
  induction m with
  | nil => rfl
  | cons p rest ih =>
    obtain ⟨a, b⟩ := p
    have ha : x < a := h (a, b) (by simp)
    rw [Memory.get, if_neg (by omega)]
    exact ih fun q hq => h q (by simp [hq])

theorem Memory.get_set_same (m : Memory) (x : Nat) (v : Byte) (h : Memory.wf m) : Memory.get (Memory.set m x v) x = v := by
  obtain ⟨hs, -⟩ := h
  induction m with
  | nil => simp only [Memory.set]; split <;> simp_all [Memory.get]
  | cons p rest ih =>
    obtain ⟨a, b⟩ := p
    obtain ⟨ha, hr⟩ := List.pairwise_cons.mp hs
    simp only [Memory.set]
    split
    · rename_i hx
      split
      · subst_vars
        exact Memory.get_of_lt _ _ fun q hq => by
          rcases List.mem_cons.mp hq with rfl | hq
          · exact hx
          · exact hx.trans (ha q hq)
      · simp [Memory.get]
    · split
      · subst_vars
        split
        · subst_vars
          exact Memory.get_of_lt _ _ fun q hq => ha q hq
        · simp [Memory.get]
      · rw [Memory.get, if_neg (by omega)]
        exact ih hr

theorem Memory.mem_set (m : Memory) (x : Nat) (v : Byte) (p : Host.Cell) (h : p ∈ Memory.set m x v) :
    p = (x, v) ∨ p ∈ m := by
  induction m with
  | nil => simp only [Memory.set] at h; split at h <;> simp_all
  | cons q rest ih =>
    obtain ⟨a, b⟩ := q
    simp only [Memory.set] at h
    split at h
    · split at h <;> simp_all
    · split at h
      · split at h
        · exact .inr (by simp [h])
        · rcases List.mem_cons.mp h with h | h
          · exact .inl h
          · exact .inr (by simp [h])
      · rcases List.mem_cons.mp h with h | h
        · exact .inr (by simp [h])
        · rcases ih h with h | h
          · exact .inl h
          · exact .inr (by simp [h])

/-- Setting a byte keeps the canonical form. -/
theorem Memory.wf_set (m : Memory) (x : Nat) (v : Byte) (h : Memory.wf m) : Memory.wf (Memory.set m x v) := by
  induction m with
  | nil => simp only [Memory.set]; split <;> simp_all [Memory.wf]
  | cons q rest ih =>
    obtain ⟨a, b⟩ := q
    obtain ⟨hs, hn⟩ := h
    obtain ⟨ha, hr⟩ := List.pairwise_cons.mp hs
    have hrest : Memory.wf rest := ⟨hr, fun p hp => hn p (by simp [hp])⟩
    have hb : b ≠ unlistedByte := hn (a, b) (by simp)
    simp only [Memory.set]
    split
    · rename_i hx
      split
      · exact ⟨hs, hn⟩
      · rename_i hv
        refine ⟨List.pairwise_cons.mpr ⟨fun q hq => ?_, hs⟩, fun p hp => ?_⟩
        · rcases List.mem_cons.mp hq with rfl | hq
          · exact hx
          · exact hx.trans (ha q hq)
        · rcases List.mem_cons.mp hp with rfl | hp
          · exact hv
          · exact hn p hp
    · split
      · subst_vars
        split
        · exact hrest
        · rename_i hv
          refine ⟨List.pairwise_cons.mpr ⟨fun q hq => ha q hq, hr⟩, fun p hp => ?_⟩
          rcases List.mem_cons.mp hp with rfl | hp
          · exact hv
          · exact hrest.2 p hp
      · obtain ⟨ih1, ih2⟩ := ih hrest
        refine ⟨List.pairwise_cons.mpr ⟨fun q hq => ?_, ih1⟩, fun p hp => ?_⟩
        · rcases Memory.mem_set _ _ _ _ hq with rfl | hq
          · show a < x
            omega
          · exact ha q hq
        · rcases List.mem_cons.mp hp with rfl | hp
          · exact hb
          · exact ih2 p hp

/-! ## MemWrite -/

/-- Everything `MemWrite` does when it is legal (R64). -/
theorem Storage.memWrite_spec (st : Storage) (a : Nat) (v : Byte) (hw : Storage.wf st) (ha : a ≤ st.fileSize)
    (hm : a < Config.storeMax) :
    ∃ st', st.memWrite a v = .ok st' ∧ Storage.wf st' ∧ st'.byte a = v ∧ (∀ x, x ≠ a → st'.byte x = st.byte x) ∧
      st'.fileSize = max st.fileSize (a + 1) := by
  obtain ⟨hmem, hlt, hsz⟩ := hw
  refine ⟨_, if_pos ⟨ha, hm⟩, ⟨Memory.wf_set _ _ _ hmem, fun p hp => ?_, ?_⟩, Memory.get_set_same _ _ _ hmem,
    fun x hx => Memory.get_set_other _ _ _ _ hx, ?_⟩
  · rcases Memory.mem_set _ _ _ _ hp with rfl | hp
    · show a < _
      simp only; split <;> omega
    · have := hlt p hp
      simp only; split <;> omega
  · simp only; split <;> omega
  · simp only; split <;> omega

/-- Whenever `MemWrite` answers, every other byte reads as before. -/
theorem Storage.memWrite_other {st st' : Storage} {a : Nat} {v : Byte} (h : st.memWrite a v = .ok st') {x : Nat}
    (hx : x ≠ a) : st'.byte x = st.byte x := by
  unfold Storage.memWrite at h
  split at h
  · cases h
    exact Memory.get_set_other _ _ _ _ hx
  · cases h

/-- A byte write never shortens the Storage (R36, R64). -/
theorem Storage.memWrite_fileSize {st st' : Storage} {a : Nat} {v : Byte} (h : st.memWrite a v = .ok st') :
    st.fileSize ≤ st'.fileSize := by
  unfold Storage.memWrite at h
  split at h
  · cases h; simp only; split <;> omega
  · cases h

/-- Everything a run of byte writes does when each is legal (R54, R64). -/
theorem Storage.memWriteRun_spec (vs : List Byte) (st : Storage) (a : Nat) (hw : Storage.wf st) (ha : a ≤ st.fileSize)
    (hm : a + vs.length ≤ Config.storeMax) :
    ∃ st', st.memWriteRun a vs = .ok st' ∧ Storage.wf st' ∧ (∀ j, j < vs.length → st'.byte (a + j) = vs.getD j 0) ∧
      (∀ x, x < a ∨ a + vs.length ≤ x → st'.byte x = st.byte x) ∧ st'.fileSize = max st.fileSize (a + vs.length) := by
  induction vs generalizing st a with
  | nil => exact ⟨st, rfl, hw, by simp, by simp, by simp; omega⟩
  | cons v vs ih =>
    simp only [List.length_cons] at hm ⊢
    obtain ⟨s1, h1, w1, e1, o1, f1⟩ := st.memWrite_spec a v hw ha (by omega)
    obtain ⟨s2, h2, w2, e2, o2, f2⟩ := ih s1 (a + 1) w1 (by omega) (by omega)
    refine ⟨s2, by simp only [Storage.memWriteRun, h1, h2], w2, fun j hj => ?_, fun x hx => ?_, by omega⟩
    · cases j with
      | zero => rw [Nat.add_zero, o2 a (.inl (by omega)), e1]; rfl
      | succ j => rw [show a + (j + 1) = a + 1 + j by omega, e2 j (by omega)]; rfl
    · rw [o2 x (by omega), o1 x (by omega)]

/-! ## Storage as a whole -/

/-- A run of byte writes leaves every byte outside it (R55). -/
theorem Storage.memWriteRun_other {vs : List Byte} {st st' : Storage} {a : Nat} (h : Storage.memWriteRun st a vs = .ok st') {x : Nat}
    (hx : x < a ∨ a + vs.length ≤ x) : st'.byte x = st.byte x := by
  induction vs generalizing st a with
  | nil => cases h; rfl
  | cons v vs ih =>
    simp only [Storage.memWriteRun] at h
    simp only [List.length_cons] at hx
    split at h
    · cases h
    · rename_i s1 h1
      rw [ih h (by omega), Storage.memWrite_other h1 (by omega)]

/-- A run of byte writes never shortens the Storage (R36, R64). -/
theorem Storage.memWriteRun_fileSize {vs : List Byte} {st st' : Storage} {a : Nat} (h : Storage.memWriteRun st a vs = .ok st') :
    st.fileSize ≤ st'.fileSize := by
  induction vs generalizing st a with
  | nil => cases h; exact le_rfl
  | cons v vs ih =>
    simp only [Storage.memWriteRun] at h
    split at h
    · cases h
    · rename_i x hx; exact (Storage.memWrite_fileSize hx).trans (ih h)

theorem Storage.wf_discarded : Storage.wf Storage.discarded := by decide

@[simp] theorem Storage.byte_discarded (a : Nat) : Storage.discarded.byte a = 0 := rfl

theorem cellsFrom_ge (a : Nat) (vs : List Byte) : ∀ p ∈ cellsFrom a vs, a ≤ p.1 ∧ p.1 < a + vs.length := by
  induction vs generalizing a with
  | nil => simp [cellsFrom]
  | cons v vs ih =>
    intro p hp
    simp only [cellsFrom] at hp
    split at hp
    · have := ih (a + 1) p hp; simp only [List.length_cons]; omega
    · rcases List.mem_cons.mp hp with rfl | hp
      · simp
      · have := ih (a + 1) p hp; simp only [List.length_cons]; omega

theorem cellsFrom_wf (a : Nat) (vs : List Byte) : Memory.wf (cellsFrom a vs) := by
  induction vs generalizing a with
  | nil => exact ⟨List.Pairwise.nil, by simp [cellsFrom]⟩
  | cons v vs ih =>
    simp only [cellsFrom]
    split
    · exact ih _
    · rename_i hv
      refine ⟨List.pairwise_cons.mpr ⟨fun q hq => ?_, (ih _).1⟩, fun p hp => ?_⟩
      · have := cellsFrom_ge _ _ q hq; show a < q.1; omega
      · rcases List.mem_cons.mp hp with rfl | hp
        · exact hv
        · exact (ih _).2 p hp

theorem cellsFrom_get (a : Nat) (vs : List Byte) (j : Nat) : Memory.get (cellsFrom a vs) (a + j) = vs.getD j 0 := by
  induction vs generalizing a j with
  | nil => simp [cellsFrom, Memory.get, unlistedByte]
  | cons v vs ih =>
    simp only [cellsFrom]
    split
    · rename_i hv
      cases j with
      | zero =>
        rw [Memory.get_of_lt _ _ fun p hp => by have := cellsFrom_ge _ _ p hp; omega]
        simp [hv]
      | succ j => rw [show a + (j + 1) = a + 1 + j by omega, ih]; rfl
    · cases j with
      | zero => simp [Memory.get]
      | succ j =>
        rw [Memory.get, if_neg (by omega), show a + (j + 1) = a + 1 + j by omega, ih]; rfl

theorem Storage.ofBytes_wf (image : List Byte) (h : image.length ≤ Config.storeMax) : Storage.wf (Storage.ofBytes image) :=
  ⟨cellsFrom_wf _ _, fun p hp => by have := cellsFrom_ge _ _ p hp; show p.1 < image.length; omega, h⟩

@[simp] theorem Storage.ofBytes_fileSize (image : List Byte) : (Storage.ofBytes image).fileSize = image.length := rfl

theorem Storage.ofBytes_byte (image : List Byte) (a : Nat) : (Storage.ofBytes image).byte a = image.getD a 0 := by
  have := cellsFrom_get 0 image a
  rwa [Nat.zero_add] at this

@[simp] theorem Storage.bytes_length (st : Storage) : st.bytes.length = st.fileSize := by simp [Storage.bytes]

theorem Storage.bytes_getD (st : Storage) (a : Nat) (h : a < st.fileSize) : st.bytes.getD a 0 = st.byte a := by
  simp [Storage.bytes, h]

/-- Two byte images are equal when they have one length and one byte at each offset. -/
theorem Storage.bytes_eq {st : Storage} {l : List Byte} (hn : st.fileSize = l.length)
    (h : ∀ a, a < st.fileSize → st.byte a = l.getD a 0) : st.bytes = l := by
  apply List.ext_getElem
  · simp [hn]
  · intro a h1 h2
    have := h a (by simpa using h1)
    simp only [Storage.bytes, List.getElem_map, List.getElem_range]
    rw [this]
    simp [h2]

theorem reset_storage_wf : Storage.wf State.reset.storage := by decide

/-- The memory operations in one place: each keeps the canonical form. -/
theorem memory_operations_keep_wf (m : Memory) (x : Nat) (v : Byte) (image : List Byte) (h : Memory.wf m) :
    Memory.wf (Memory.set m x v) ∧ Memory.wf (cellsFrom 0 image) ∧ Memory.wf Storage.discarded.mem :=
  ⟨Memory.wf_set _ _ _ h, cellsFrom_wf _ _, Storage.wf_discarded.1⟩

/-- A byte read below `fileSize` answers (R8). -/
theorem Storage.memRead_of_lt {st : Storage} {a : Nat} (h : a < st.fileSize) : st.memRead a = .ok (st.byte a) := if_pos h

/-- The header read answers the declared length when the Storage holds a header (R50, R123). -/
theorem Storage.readHeader_of_le {st : Storage} (h : Config.hdr ≤ st.fileSize) : st.readHeader = .ok st.declaredLen := by
  have h4 : 4 ≤ st.fileSize := h
  simp only [Storage.readHeader, Storage.memRead_of_lt (show 0 < st.fileSize by omega),
    Storage.memRead_of_lt (show 1 < st.fileSize by omega), Storage.memRead_of_lt (show 2 < st.fileSize by omega),
    Storage.memRead_of_lt (show 3 < st.fileSize by omega), Storage.declaredLen]

theorem Storage.declaredLen_lt (st : Storage) : st.declaredLen < 2 ^ 32 := by
  have h0 := (st.byte 0).isLt
  have h1 := (st.byte 1).isLt
  have h2 := (st.byte 2).isLt
  have h3 := (st.byte 3).isLt
  simp only [Storage.declaredLen]; omega

end Sys2Proof.Machine
end

