-- ==== Sys2Proof/Laws/Bits.lean ====
section
/-! SUPPORT. Bit sequences and their values, the flush and read loops, the header, the payload bytes. -/

namespace Sys2Proof.Machine

/-! ## Bit sequences and values -/

@[simp] theorem bitsOf_length (v n : Nat) : (bitsOf v n).length = n := by simp [bitsOf]

@[simp] theorem bitsOf_zero (v : Nat) : bitsOf v 0 = [] := rfl

theorem bitsOf_getElem (v n j : Nat) (h : j < (bitsOf v n).length) : (bitsOf v n)[j] = v.testBit (n - 1 - j) := by
  simp [bitsOf]

theorem bitsOf_congr {v w n : Nat} (h : ∀ i < n, v.testBit i = w.testBit i) : bitsOf v n = bitsOf w n := by
  apply List.ext_getElem (by simp)
  intro j h1 h2
  rw [bitsOf_getElem, bitsOf_getElem]
  simp only [bitsOf_length] at h1
  exact h _ (by omega)

theorem bitsOf_mod (v n : Nat) : bitsOf (v % 2 ^ n) n = bitsOf v n :=
  bitsOf_congr fun i hi => by simp [Nat.testBit_mod_two_pow, hi]

theorem bitsOf_add (v p q : Nat) : bitsOf v (p + q) = bitsOf (v / 2 ^ q) p ++ bitsOf v q := by
  apply List.ext_getElem (by simp)
  intro j h1 h2
  simp only [bitsOf_length] at h1
  rw [bitsOf_getElem, List.getElem_append]
  split
  · rename_i h
    simp only [bitsOf_length] at h
    rw [bitsOf_getElem, Nat.testBit_div_two_pow]
    congr 1; omega
  · rename_i h
    simp only [bitsOf_length] at h
    rw [bitsOf_getElem]
    simp only [bitsOf_length]
    congr 1; omega

/-- The bits of a buffer: the pending ones, then the appended ones (R124). -/
theorem bitsOf_buffer (acc k v n : Nat) : bitsOf (acc * 2 ^ n + v % 2 ^ n) (k + n) = bitsOf acc k ++ bitsOf v n := by
  have hlt : v % 2 ^ n < 2 ^ n := Nat.mod_lt _ (by positivity)
  rw [bitsOf_add, Nat.add_comm, Nat.add_mul_div_right _ _ (by positivity), Nat.div_eq_of_lt hlt, Nat.zero_add]
  congr 1
  rw [← bitsOf_mod, Nat.add_mul_mod_self_right, bitsOf_mod, bitsOf_mod]

theorem bitsValue_foldl (b : List Bool) (r : Nat) :
    b.foldl (fun v x => 2 * v + x.toNat) r = r * 2 ^ b.length + bitsValue b := by
  induction b generalizing r with
  | nil => simp [bitsValue]
  | cons x xs ih =>
    simp only [List.foldl_cons, bitsValue, List.length_cons]
    rw [ih, ih (2 * 0 + x.toNat)]
    ring

theorem bitsValue_cons (x : Bool) (b : List Bool) : bitsValue (x :: b) = x.toNat * 2 ^ b.length + bitsValue b := by
  have := bitsValue_foldl b (2 * 0 + x.toNat)
  simpa [bitsValue] using this

theorem bitsValue_append (a b : List Bool) : bitsValue (a ++ b) = bitsValue a * 2 ^ b.length + bitsValue b := by
  rw [bitsValue, List.foldl_append]
  exact bitsValue_foldl b _

theorem bitsValue_lt (b : List Bool) : bitsValue b < 2 ^ b.length := by
  induction b with
  | nil => simp [bitsValue]
  | cons x xs ih =>
    rw [bitsValue_cons, List.length_cons, pow_succ]
    cases x <;> simp <;> omega

theorem bitsOf_succ (v n : Nat) : bitsOf v (n + 1) = v.testBit n :: bitsOf v n := by
  rw [Nat.add_comm, bitsOf_add]
  simp [bitsOf, Nat.testBit_eq_decide_div_mod_eq]

theorem bitsValue_bitsOf (v n : Nat) : bitsValue (bitsOf v n) = v % 2 ^ n := by
  induction n with
  | zero => simp [bitsValue, Nat.mod_one]
  | succ n ih =>
    rw [bitsOf_succ, bitsValue_cons, ih, bitsOf_length, Nat.pow_succ, Nat.mod_mul, Nat.testBit_eq_decide_div_mod_eq]
    rcases Nat.mod_two_eq_zero_or_one (v / 2 ^ n) with h | h <;> simp [h, Nat.add_comm]

theorem bitsOf_bitsValue (b : List Bool) : bitsOf (bitsValue b) b.length = b := by
  induction b with
  | nil => rfl
  | cons x xs ih =>
    rw [List.length_cons, bitsOf_succ]
    have hlt := bitsValue_lt xs
    congr 1
    · rw [bitsValue_cons, Nat.testBit_eq_decide_div_mod_eq, Nat.add_comm, Nat.add_mul_div_right _ _ (by positivity),
        Nat.div_eq_of_lt hlt]
      cases x <;> simp
    · rw [← bitsOf_mod, bitsValue_cons, Nat.mul_add_mod_of_lt' hlt, ih]
where
  Nat.mul_add_mod_of_lt' {a b n : Nat} (h : b < n) : (a * n + b) % n = b := by
    rw [Nat.add_comm, Nat.add_mul_mod_self_right, Nat.mod_eq_of_lt h]

/-! ## Payload bits -/

/-- A payload bit as a bit of its byte (R51). -/
theorem Storage.payloadBit_eq (st : Storage) (i : Nat) :
    st.payloadBit i = (st.byte (Config.hdr + i / 8)).toNat.testBit (7 - i % 8) := by
  rw [Storage.payloadBit, bitOfByte, Nat.testBit_eq_decide_div_mod_eq]

theorem bitOfByte_toNat (st : Storage) (i : Nat) :
    bitOfByte (st.byte (Config.hdr + i / 8)) i = (st.payloadBit i).toNat := by
  have : bitOfByte (st.byte (Config.hdr + i / 8)) i < 2 := Nat.mod_lt _ (by decide)
  rw [Storage.payloadBit]
  rcases Nat.lt_or_ge (bitOfByte (st.byte (Config.hdr + i / 8)) i) 1 with h | h
  · have h0 : bitOfByte (st.byte (Config.hdr + i / 8)) i = 0 := by omega
    simp [h0]
  · have h1 : bitOfByte (st.byte (Config.hdr + i / 8)) i = 1 := by omega
    simp [h1]

@[simp] theorem Storage.payloadBits_length (st : Storage) (c n : Nat) : (st.payloadBits c n).length = n := by
  simp [Storage.payloadBits]

theorem Storage.payloadBits_getElem (st : Storage) (c n j : Nat) (h : j < (st.payloadBits c n).length) :
    (st.payloadBits c n)[j] = st.payloadBit (c + j) := by simp [Storage.payloadBits]

theorem Storage.payloadBits_add (st : Storage) (c p q : Nat) :
    st.payloadBits c (p + q) = st.payloadBits c p ++ st.payloadBits (c + p) q := by
  apply List.ext_getElem (by simp)
  intro j h1 h2
  rw [Storage.payloadBits_getElem, List.getElem_append]
  split
  · rw [Storage.payloadBits_getElem]
  · rename_i h
    rw [Storage.payloadBits_getElem]
    simp only [Storage.payloadBits_length] at h ⊢
    congr 1; omega

theorem Storage.payloadBits_succ (st : Storage) (c n : Nat) :
    st.payloadBits c (n + 1) = st.payloadBit c :: st.payloadBits (c + 1) n := by
  rw [Nat.add_comm, Storage.payloadBits_add]
  simp [Storage.payloadBits]

/-- The payload bits depend on the bytes they lie in only. -/
theorem Storage.payloadBits_congr {st st' : Storage} {c n : Nat}
    (h : ∀ i, c ≤ i → i < c + n → st.byte (Config.hdr + i / 8) = st'.byte (Config.hdr + i / 8)) :
    st.payloadBits c n = st'.payloadBits c n := by
  apply List.ext_getElem (by simp)
  intro j h1 h2
  simp only [Storage.payloadBits_length] at h1
  rw [Storage.payloadBits_getElem, Storage.payloadBits_getElem, Storage.payloadBit_eq, Storage.payloadBit_eq,
    h (c + j) (by omega) (by omega)]

/-- The eight payload bits of one byte are the byte's bits, most significant first (R51). -/
theorem Storage.payloadBits_byte (st : Storage) (k : Nat) :
    st.payloadBits (8 * k) 8 = bitsOf (st.byte (Config.hdr + k)).toNat 8 := by
  apply List.ext_getElem (by simp)
  intro j h1 h2
  simp only [Storage.payloadBits_length] at h1
  rw [Storage.payloadBits_getElem, Storage.payloadBit_eq, bitsOf_getElem]
  rw [show (8 * k + j) / 8 = k by omega, show 7 - (8 * k + j) % 8 = 8 - 1 - j by omega]

/-! ## The read loop -/

/-- Everything the read loop of BS.READ does when its bits lie in the Storage (R125). -/
theorem readRun_spec (st : Storage) (n i r : Nat) (h : Config.hdr + ceil8 (i + n) ≤ st.fileSize) :
    readRun st n i r = .ok (r * 2 ^ n + bitsValue (st.payloadBits i n)) := by
  induction n generalizing i r with
  | zero => simp [readRun, Storage.payloadBits, bitsValue]
  | succ n ih =>
    have h' := h
    simp only [ceil8, Config.hdr] at h'
    have ha : Config.hdr + i / 8 < st.fileSize := by simp only [Config.hdr]; omega
    simp only [readRun, Storage.memRead_of_lt ha]
    rw [ih (i + 1) _ (by rwa [show i + 1 + n = i + (n + 1) by omega]), Storage.payloadBits_succ, bitsValue_cons,
      bitOfByte_toNat, Storage.payloadBits_length]
    congr 1
    ring

/-! ## The flush loop -/

theorem mod_div_mod_256 (x p q : Nat) (h : 8 ≤ q) : x % 2 ^ (p + q) / 2 ^ p % 256 = x / 2 ^ p % 256 := by
  rw [pow_add, Nat.mod_mul_right_div_self]
  exact Nat.mod_mod_of_dvd _ (show 2 ^ 8 ∣ 2 ^ q from pow_dvd_pow 2 h)

/-- Everything the flush loop of BS.WRITE does when its bytes fit (R124, R134). -/
theorem flushBytes_spec (k a m buf : Nat) (st : Storage) (hk : 8 * k ≤ m) (hw : Storage.wf st) (ha : a ≤ st.fileSize)
    (hm : a + k ≤ Config.storeMax) :
    ∃ st', flushBytes k a m buf st = .ok (st', if k = 0 then buf else buf % 2 ^ (m - 8 * k)) ∧ Storage.wf st' ∧
      (∀ j, j < k → st'.byte (a + j) = BitVec.ofNat 8 (buf / 2 ^ (m - 8 * (j + 1)) % 256)) ∧
      (∀ x, x < a ∨ a + k ≤ x → st'.byte x = st.byte x) ∧ st'.fileSize = max st.fileSize (a + k) := by
  induction k generalizing a m buf st with
  | zero => exact ⟨st, rfl, hw, by simp, by simp, by omega⟩
  | succ k ih =>
    obtain ⟨s1, h1, w1, e1, o1, f1⟩ := st.memWrite_spec a (BitVec.ofNat 8 (buf / 2 ^ (m - 8) % 256)) hw ha (by omega)
    obtain ⟨s2, h2, w2, e2, o2, f2⟩ := ih (a + 1) (m - 8) (buf % 2 ^ (m - 8)) s1 (by omega) w1 (by omega) (by omega)
    refine ⟨s2, ?_, w2, fun j hj => ?_, fun x hx => ?_, by omega⟩
    · simp only [flushBytes, h1, h2, Nat.add_one_ne_zero, if_false]
      congr 2
      split
      · subst_vars; rfl
      · rw [Nat.mod_mod_of_dvd _ (pow_dvd_pow 2 (by omega)), show m - 8 - 8 * k = m - 8 * (k + 1) by omega]
    · cases j with
      | zero => rw [Nat.add_zero, o2 a (.inl (by omega)), e1]
      | succ j =>
        have hmod := mod_div_mod_256 buf (m - 8 * (j + 1 + 1)) (8 * (j + 1)) (by omega)
        rw [show m - 8 * (j + 1 + 1) + 8 * (j + 1) = m - 8 by omega] at hmod
        rw [show a + (j + 1) = a + 1 + j by omega, e2 j (by omega), show m - 8 - 8 * (j + 1) = m - 8 * (j + 1 + 1) by omega,
          hmod]
    · rw [o2 x (by omega), o1 x (by omega)]

/-- The flush loop writes only at the offsets from `a` on, one for each turn (R134). -/
theorem flushBytes_other {k a m buf : Nat} {st st' : Storage} {r : Nat} (h : flushBytes k a m buf st = .ok (st', r))
    {x : Nat} (hx : x < a ∨ a + k ≤ x) : st'.byte x = st.byte x := by
  induction k generalizing a m buf st with
  | zero => cases h; rfl
  | succ k ih =>
    simp only [flushBytes] at h
    split at h
    · cases h
    · rename_i s1 h1
      rw [ih h (by omega), Storage.memWrite_other h1 (by omega)]

/-- The payload bits the flush loop leaves are the oldest bits of the buffer (R51, R124). -/
theorem flushed_bits {st' : Storage} {k q m buf : Nat} (hk : 8 * k ≤ m)
    (hb : ∀ j, j < k → st'.byte (Config.hdr + q + j) = BitVec.ofNat 8 (buf / 2 ^ (m - 8 * (j + 1)) % 256)) :
    st'.payloadBits (8 * q) (8 * k) = bitsOf (buf / 2 ^ (m - 8 * k)) (8 * k) := by
  apply List.ext_getElem (by simp)
  intro i h1 h2
  simp only [Storage.payloadBits_length] at h1
  rw [Storage.payloadBits_getElem, Storage.payloadBit_eq, bitsOf_getElem, Nat.testBit_div_two_pow,
    show Config.hdr + (8 * q + i) / 8 = Config.hdr + q + i / 8 by omega, hb (i / 8) (by omega), BitVec.toNat_ofNat,
    show (8 * q + i) % 8 = i % 8 by omega]
  rw [Nat.testBit_mod_two_pow, show (256 : Nat) = 2 ^ 8 by rfl, Nat.testBit_mod_two_pow, Nat.testBit_div_two_pow]
  have hlt : 7 - i % 8 < 8 := by omega
  simp only [hlt, decide_true, Bool.true_and]
  congr 1; omega

/-! ## The header -/

/-- The header bytes of a length give the length back (R50, R128). -/
theorem Storage.declaredLen_of_header {st : Storage} {len : Nat} (hlen : len < 2 ^ 32)
    (h : ∀ j, j < 4 → st.byte j = (headerBytes len).getD j 0) : st.declaredLen = len := by
  have h0 := h 0 (by omega)
  have h1 := h 1 (by omega)
  have h2 := h 2 (by omega)
  have h3 := h 3 (by omega)
  simp only [headerBytes, List.getD_cons_zero, List.getD_cons_succ] at h0 h1 h2 h3
  simp only [Storage.declaredLen, h0, h1, h2, h3, BitVec.toNat_ofNat]
  omega

@[simp] theorem headerBytes_length (len : Nat) : (headerBytes len).length = 4 := rfl

@[simp] theorem bitFile_length (b : List Bool) : (bitFile b).length = Config.hdr + ceil8 b.length := by
  simp [bitFile]

theorem payloadByte_toNat (b : List Bool) (k : Nat) :
    (payloadByte b k).toNat = bitsValue ((List.range 8).map fun t => padBit b (8 * k + t)) := by
  rw [payloadByte, BitVec.toNat_ofNat]
  exact Nat.mod_eq_of_lt (by simpa using bitsValue_lt ((List.range 8).map fun t => padBit b (8 * k + t)))

theorem payloadByte_bits (b : List Bool) (k : Nat) :
    bitsOf (payloadByte b k).toNat 8 = (List.range 8).map fun t => padBit b (8 * k + t) := by
  have := bitsOf_bitsValue ((List.range 8).map fun t => padBit b (8 * k + t))
  rw [payloadByte_toNat]
  simpa using this

/-- A byte is the payload byte of a bit sequence when its bits are (R79). -/
theorem byte_eq_payloadByte {x : Byte} {b : List Bool} {k : Nat}
    (h : bitsOf x.toNat 8 = (List.range 8).map fun t => padBit b (8 * k + t)) : x = payloadByte b k := by
  apply BitVec.eq_of_toNat_eq
  rw [payloadByte_toNat, ← h, bitsValue_bitsOf]
  exact (Nat.mod_eq_of_lt x.isLt).symm

/-- In a Storage that holds `BitFile(b)`, payload bit `i` is `b_i`, and 0 from `L` on (R79). -/
theorem Storage.payloadBit_bitFile {st : Storage} {b : List Bool} (h : st.bytes = bitFile b) {i : Nat}
    (hi : i < 8 * ceil8 b.length) : st.payloadBit i = padBit b i := by
  have hf : st.fileSize = Config.hdr + ceil8 b.length := by rw [← Storage.bytes_length, h, bitFile_length]
  have hlt : Config.hdr + i / 8 < st.fileSize := by omega
  have hbyte : st.byte (Config.hdr + i / 8) = payloadByte b (i / 8) := by
    rw [← Storage.bytes_getD _ _ hlt, h, bitFile, List.getD_append_right _ _ _ _ (by simp)]
    have : i / 8 < ceil8 b.length := by omega
    simp [List.getD_eq_getElem?_getD, this]
  have hb := payloadByte_bits b (i / 8)
  rw [Storage.payloadBit_eq, hbyte]
  have h8 : i % 8 < 8 := Nat.mod_lt _ (by decide)
  have := congrArg (fun l => l.getD (i % 8) false) hb
  simp only [bitsOf, List.getD_eq_getElem?_getD, List.getElem?_map, List.getElem?_range h8, Option.map_some,
    Option.getD_some] at this
  rw [show 7 - i % 8 = 8 - 1 - i % 8 by omega, this]
  congr 1; omega

/-- A run of payload bits of a Storage that holds `BitFile(b)` is a slice of `b` (R79, R133). -/
theorem Storage.payloadBits_bitFile {st : Storage} {b : List Bool} (hs : st.bytes = bitFile b) {c n : Nat} (h : c + n ≤ b.length) :
    st.payloadBits c n = (b.drop c).take n := by
  apply List.ext_getElem (by simp; omega)
  intro j h1 h2
  simp only [Storage.payloadBits_length] at h1
  rw [Storage.payloadBits_getElem, Storage.payloadBit_bitFile hs (by simp only [ceil8]; omega), padBit, List.getD_eq_getElem _ _ (by omega)]
  simp

/-- The header of a Storage that holds `BitFile(b)` declares the length of `b` (R50, R79). -/
theorem Storage.declaredLen_bitFile {st : Storage} {b : List Bool} (hs : st.bytes = bitFile b) (hb : b.length < 2 ^ 32) :
    st.declaredLen = b.length := by
  have hf : st.fileSize = Config.hdr + ceil8 b.length := by rw [← Storage.bytes_length, hs, bitFile_length]
  simp only [Config.hdr] at hf
  refine Storage.declaredLen_of_header hb fun j hj => ?_
  rw [← Storage.bytes_getD _ _ (by omega), hs, bitFile, List.getD_append _ _ _ _ (by simpa using hj)]

/-- The flush loop never shortens the Storage (R36, R64). -/
theorem flushBytes_fileSize {k a m buf : Nat} {st st' : Storage} {r : Nat} (h : flushBytes k a m buf st = .ok (st', r)) :
    st.fileSize ≤ st'.fileSize := by
  induction k generalizing a m buf st with
  | zero => cases h; exact le_rfl
  | succ k ih =>
    simp only [flushBytes] at h
    split at h
    · cases h
    · rename_i x hx; exact (Storage.memWrite_fileSize hx).trans (ih h)

end Sys2Proof.Machine
end

