-- ==== Sys2Proof/Laws/State.lean ====
section
/-! SUPPORT. One lemma per field for each named update of State. -/

namespace Sys2Proof.Machine

/-! ## A completed command -/

@[simp] theorem withResponse_bsMode (s : State) (p : BitVec 16) (d : BitVec 32) :
    (s.withResponse p d).bsMode = s.bsMode := rfl

@[simp] theorem withResponse_bsTotal (s : State) (p : BitVec 16) (d : BitVec 32) :
    (s.withResponse p d).bsTotal = s.bsTotal := rfl

@[simp] theorem withResponse_bsLen (s : State) (p : BitVec 16) (d : BitVec 32) :
    (s.withResponse p d).bsLen = s.bsLen := rfl

@[simp] theorem withResponse_bsRemain (s : State) (p : BitVec 16) (d : BitVec 32) :
    (s.withResponse p d).bsRemain = s.bsRemain := rfl

@[simp] theorem withResponse_bsAcc (s : State) (p : BitVec 16) (d : BitVec 32) :
    (s.withResponse p d).bsAcc = s.bsAcc := rfl

@[simp] theorem withResponse_bsNacc (s : State) (p : BitVec 16) (d : BitVec 32) :
    (s.withResponse p d).bsNacc = s.bsNacc := rfl

@[simp] theorem withResponse_pqCount (s : State) (p : BitVec 16) (d : BitVec 32) :
    (s.withResponse p d).pqCount = s.pqCount := rfl

@[simp] theorem withResponse_errlog (s : State) (p : BitVec 16) (d : BitVec 32) :
    (s.withResponse p d).errlog = s.errlog := rfl

@[simp] theorem withResponse_opl (s : State) (p : BitVec 16) (d : BitVec 32) :
    (s.withResponse p d).opl = s.opl := rfl

@[simp] theorem withResponse_storage (s : State) (p : BitVec 16) (d : BitVec 32) :
    (s.withResponse p d).storage = s.storage := rfl

@[simp] theorem withResponse_reply (s : State) (p : BitVec 16) (d : BitVec 32) :
    (s.withResponse p d).reply = .response (respWord 0 p d) := rfl

@[simp] theorem withResponse_moves (s : State) (p : BitVec 16) (d : BitVec 32) :
    (s.withResponse p d).moves = s.moves := rfl

/-! ## A faulting command -/

@[simp] theorem withFault_bsMode (s : State) (k : FaultKind) :
    (s.withFault k).bsMode = s.bsMode := rfl

@[simp] theorem withFault_bsTotal (s : State) (k : FaultKind) :
    (s.withFault k).bsTotal = s.bsTotal := rfl

@[simp] theorem withFault_bsLen (s : State) (k : FaultKind) :
    (s.withFault k).bsLen = s.bsLen := rfl

@[simp] theorem withFault_bsRemain (s : State) (k : FaultKind) :
    (s.withFault k).bsRemain = s.bsRemain := rfl

@[simp] theorem withFault_bsAcc (s : State) (k : FaultKind) :
    (s.withFault k).bsAcc = s.bsAcc := rfl

@[simp] theorem withFault_bsNacc (s : State) (k : FaultKind) :
    (s.withFault k).bsNacc = s.bsNacc := rfl

@[simp] theorem withFault_pqCount (s : State) (k : FaultKind) :
    (s.withFault k).pqCount = s.pqCount := rfl

@[simp] theorem withFault_errlog (s : State) (k : FaultKind) :
    (s.withFault k).errlog = errlogAfter k s.errlog := rfl

@[simp] theorem withFault_opl (s : State) (k : FaultKind) :
    (s.withFault k).opl = s.opl := rfl

@[simp] theorem withFault_storage (s : State) (k : FaultKind) :
    (s.withFault k).storage = s.storage := rfl

@[simp] theorem withFault_reply (s : State) (k : FaultKind) :
    (s.withFault k).reply = .response (respWord (k.code.setWidth 8) 0 0) := rfl

@[simp] theorem withFault_moves (s : State) (k : FaultKind) :
    (s.withFault k).moves = s.moves := rfl

/-! ## Reset -/

@[simp] theorem resetBlock_bsMode (s : State) :
    (resetBlock s).bsMode = .idle := rfl

@[simp] theorem resetBlock_bsTotal (s : State) :
    (resetBlock s).bsTotal = 0 := rfl

@[simp] theorem resetBlock_bsLen (s : State) :
    (resetBlock s).bsLen = 0 := rfl

@[simp] theorem resetBlock_bsRemain (s : State) :
    (resetBlock s).bsRemain = 0 := rfl

@[simp] theorem resetBlock_bsAcc (s : State) :
    (resetBlock s).bsAcc = 0 := rfl

@[simp] theorem resetBlock_bsNacc (s : State) :
    (resetBlock s).bsNacc = 0 := rfl

@[simp] theorem resetBlock_pqCount (s : State) :
    (resetBlock s).pqCount = 0 := rfl

@[simp] theorem resetBlock_errlog (s : State) :
    (resetBlock s).errlog = 0 := rfl

@[simp] theorem resetBlock_opl (s : State) :
    (resetBlock s).opl = [] := rfl

@[simp] theorem resetBlock_storage (s : State) :
    (resetBlock s).storage = s.storage := rfl

@[simp] theorem resetBlock_reply (s : State) :
    (resetBlock s).reply = .nothing := rfl

@[simp] theorem resetBlock_moves (s : State) :
    (resetBlock s).moves = s.moves := rfl

/-! ## A command placed next -/

@[simp] theorem withFetchWord_bsMode (s : State) (n w : Nat) :
    (s.withFetchWord n w).bsMode = s.bsMode := rfl

@[simp] theorem withFetchWord_bsTotal (s : State) (n w : Nat) :
    (s.withFetchWord n w).bsTotal = s.bsTotal := rfl

@[simp] theorem withFetchWord_bsLen (s : State) (n w : Nat) :
    (s.withFetchWord n w).bsLen = s.bsLen := rfl

@[simp] theorem withFetchWord_bsRemain (s : State) (n w : Nat) :
    (s.withFetchWord n w).bsRemain = s.bsRemain := rfl

@[simp] theorem withFetchWord_bsAcc (s : State) (n w : Nat) :
    (s.withFetchWord n w).bsAcc = s.bsAcc := rfl

@[simp] theorem withFetchWord_bsNacc (s : State) (n w : Nat) :
    (s.withFetchWord n w).bsNacc = s.bsNacc := rfl

@[simp] theorem withFetchWord_pqCount (s : State) (n w : Nat) :
    (s.withFetchWord n w).pqCount = s.pqCount := rfl

@[simp] theorem withFetchWord_errlog (s : State) (n w : Nat) :
    (s.withFetchWord n w).errlog = s.errlog := rfl

@[simp] theorem withFetchWord_opl (s : State) (n w : Nat) :
    (s.withFetchWord n w).opl = s.opl := rfl

@[simp] theorem withFetchWord_storage (s : State) (n w : Nat) :
    (s.withFetchWord n w).storage = s.storage := rfl

@[simp] theorem withFetchWord_reply (s : State) (n w : Nat) :
    (s.withFetchWord n w).reply = s.reply := rfl

@[simp] theorem withFetchWord_moves (s : State) (n w : Nat) :
    (s.withFetchWord n w).moves = .issue (wordOfTable n w) :: s.moves := rfl

end Sys2Proof.Machine
end

