-- ==== Sys2Proof/Laws/Commands.lean ====
section
/-! SUPPORT. What the shared operations of the commands do: the response word's fields, raising a fault, the sorted insertion. -/

namespace Sys2Proof.Machine

/-! ## Response words -/

@[simp] theorem respStatus_respWord (st : BitVec 8) (p : BitVec 16) (d : BitVec 32) : respStatus (respWord st p d) = st := by
  apply BitVec.eq_of_getLsbD_eq
  intro i hi
  simp only [respStatus, respWord, BitVec.getLsbD_extractLsb', BitVec.getLsbD_append]
  simp [hi, show ¬ 56 + i < 32 by omega, show ¬ 56 + i - 32 < 16 by omega, show ¬ 56 + i - 32 - 16 < 8 by omega,
    show 56 + i - 32 - 16 - 8 = i by omega]

@[simp] theorem respReserved_respWord (st : BitVec 8) (p : BitVec 16) (d : BitVec 32) : respReserved (respWord st p d) = 0 := by
  apply BitVec.eq_of_getLsbD_eq
  intro i hi
  simp only [respReserved, respWord, BitVec.getLsbD_extractLsb', BitVec.getLsbD_append]
  simp [hi, show ¬ 48 + i < 32 by omega, show ¬ 48 + i - 32 < 16 by omega, show 48 + i - 32 - 16 < 8 by omega]

@[simp] theorem respPay_respWord (st : BitVec 8) (p : BitVec 16) (d : BitVec 32) : respPay (respWord st p d) = p := by
  apply BitVec.eq_of_getLsbD_eq
  intro i hi
  simp only [respPay, respWord, BitVec.getLsbD_extractLsb', BitVec.getLsbD_append]
  simp [hi, show ¬ 32 + i < 32 by omega, show 32 + i - 32 = i by omega]

@[simp] theorem respData_respWord (st : BitVec 8) (p : BitVec 16) (d : BitVec 32) : respData (respWord st p d) = d := by
  apply BitVec.eq_of_getLsbD_eq
  intro i hi
  simp only [respData, respWord, BitVec.getLsbD_extractLsb', BitVec.getLsbD_append]
  simp [hi]

/-! ## Responding and raising -/

theorem respond_eq (p : BitVec 16) (d : BitVec 32) (s : State) : respond p d s = .next (s.withResponse p d) := rfl

theorem raise_eq (k : FaultKind) (s : State) : raise k s = .next (s.withFault k) := rfl

/-- Raising a fault is what R211 says. -/
theorem raise_raisesOnly (k : FaultKind) (s : State) : raisesOnly (raise k s) k s :=
  ⟨s.withFault k, rfl, rfl, rfl, ⟨rfl, rfl, rfl, rfl, rfl, rfl⟩, ⟨rfl, rfl⟩, rfl, rfl⟩

theorem code_ne_zero (k : FaultKind) : k.code.setWidth 8 ≠ (0 : BitVec 8) := by cases k <;> decide

/-- The kinds the block raises leave `ERRLOG` legal (R22, R200). -/
theorem errlogAfter_legal {k : FaultKind} {e : BitVec 4} (he : errlogLegal e) (h5 : k ≠ .internalInvariantError)
    (h6 : k ≠ .symbolNotInTableError) : errlogLegal (errlogAfter k e) := by
  unfold errlogAfter
  split
  · cases k <;> first | contradiction | decide
  · exact he

/-- Every fault kind the spec has, found again from its code (R200). -/
theorem kindOfStatus_code (k : FaultKind) : kindOfStatus (k.code.setWidth 8) = some k := by cases k <;> decide

/-! ## The OPL -/

/-- The insertion puts the entry before the first of equal or larger weight (R101). -/
theorem oplInsert_split (e : Entry) (l : List Entry) :
    ∃ before after, l = before ++ after ∧ oplInsert e l = before ++ e :: after ∧
      (∀ x ∈ before, x.weight.toNat < e.weight.toNat) ∧ ∀ x ∈ after.head?, e.weight.toNat ≤ x.weight.toNat := by
  induction l with
  | nil => exact ⟨[], [], rfl, rfl, by simp, by simp⟩
  | cons y ys ih =>
    rw [oplInsert]
    split
    · rename_i h
      exact ⟨[], y :: ys, rfl, rfl, by simp, by simpa using h⟩
    · rename_i h
      obtain ⟨before, after, h1, h2, h3, h4⟩ := ih
      refine ⟨y :: before, after, by simp [h1], by simp [h2], fun x hx => ?_, h4⟩
      rcases List.mem_cons.mp hx with rfl | hx
      · omega
      · exact h3 x hx

@[simp] theorem oplInsert_length (e : Entry) (l : List Entry) : (oplInsert e l).length = l.length + 1 := by
  obtain ⟨b, a, h1, h2, -, -⟩ := oplInsert_split e l
  rw [h2, h1]; simp; omega

/-- The insertion adds the entry and keeps the others. -/
theorem oplInsert_perm (e : Entry) (l : List Entry) : (oplInsert e l).Perm (e :: l) := by
  obtain ⟨b, a, h1, h2, -, -⟩ := oplInsert_split e l
  rw [h2, h1]; exact List.perm_middle

/-- The insertion keeps ascending order (R105). -/
theorem oplInsert_sorted (e : Entry) (l : List Entry) (h : oplSorted l) : oplSorted (oplInsert e l) := by
  induction l with
  | nil => simp [oplInsert, oplSorted]
  | cons y ys ih =>
    obtain ⟨hy, hys⟩ := List.pairwise_cons.mp h
    rw [oplInsert]
    split
    · rename_i hle
      refine List.pairwise_cons.mpr ⟨fun x hx => ?_, h⟩
      rcases List.mem_cons.mp hx with rfl | hx
      · exact hle
      · exact hle.trans (hy x hx)
    · rename_i hlt
      refine List.pairwise_cons.mpr ⟨fun x hx => ?_, ih hys⟩
      obtain ⟨b, a, h1, h2, -, -⟩ := oplInsert_split e ys
      rw [h2] at hx
      have : x = e ∨ x ∈ ys := by
        rw [h1]; simp at hx ⊢; tauto
      rcases this with rfl | hx
      · omega
      · exact hy x hx

end Sys2Proof.Machine
end

