-- ==== Sys2Proof/Laws/Bsc.lean ====
section
/-! SUPPORT. What the arms of the BSC commands do, each said once: opening, appending, taking, closing. -/

namespace Sys2Proof.Machine

/-- `STORE_MAX` holds every payload a 32-bit length can declare (R5, R124). -/
theorem fits_storage {total : Nat} (h : total ≤ Config.maxTotal) : Config.hdr + ceil8 total ≤ Config.storeMax := by
  simp only [Config.hdr, Config.maxTotal, Config.storeMax, ceil8] at *; omega

/-- Everything the write arm of BS.OPEN does (R122). -/
theorem openWrite_spec (s : State) :
    ∃ st, openWrite s = .next (State.withResponse
        { s with storage := st, bsTotal := 0, bsAcc := 0, bsNacc := 0, bsMode := .write } 0 0) ∧
      Storage.wf st ∧ st.fileSize = 4 ∧ ∀ a, st.byte a = 0 := by
  obtain ⟨st, h, w, e, o, f⟩ := Storage.memWriteRun_spec [0, 0, 0, 0] Storage.discarded 0 Storage.wf_discarded (by decide) (by decide)
  refine ⟨st, by simp only [openWrite, h, respond_eq], w, by simpa [Storage.discarded] using f, fun a => ?_⟩
  by_cases ha : a < 4
  · have h4 : a = 0 ∨ a = 1 ∨ a = 2 ∨ a = 3 := by omega
    have := e a (by simpa using ha)
    rw [Nat.zero_add] at this
    rw [this]
    rcases h4 with rfl | rfl | rfl | rfl <;> rfl
  · rw [o a (.inr (by simpa using ha)), Storage.byte_discarded]

/-- What the appended bits of a write session are made of: the flushed ones and the pending ones (R38, R39). -/
theorem State.appended_length (s : State) (h : s.bsNacc.toNat = s.bsTotal.toNat % 8) : s.appended.length = s.bsTotal.toNat := by
  simp [State.appended]; omega

/-- Everything BS.WRITE does after its tests, in a write session that meets the invariant (R124, R134, R39). -/
theorem appendBits_spec (n : Nat) (value : BitVec 32) (s : State) (hs : s.Inv) (hm : s.bsMode = .write) (hn : n ≤ 32)
    (ht : s.bsTotal.toNat + n ≤ Config.maxTotal) :
    ∃ t, appendBits n value s = .next t ∧ t.reply = .response (respWord 0 0 0) ∧
      t.bsTotal.toNat = s.bsTotal.toNat + n ∧ t.bsNacc.toNat = (s.bsNacc.toNat + n) % 8 ∧
      t.bsAcc.toNat = (s.bsAcc.toNat * 2 ^ n + lowBits value n) % 2 ^ ((s.bsNacc.toNat + n) % 8) ∧
      t.bsAcc.toNat < 2 ^ t.bsNacc.toNat ∧ t.appended = s.appended ++ bitsOf value.toNat n ∧ Storage.wf t.storage ∧
      t.storage.fileSize = s.storage.fileSize + (s.bsNacc.toNat + n) / 8 ∧
      (∀ a < s.storage.fileSize, t.storage.byte a = s.storage.byte a) ∧ t.bsMode = s.bsMode ∧ t.bsLen = s.bsLen ∧
      t.bsRemain = s.bsRemain ∧ sameOpl s t ∧ t.errlog = s.errlog ∧ sameMoves s t := by
  have hmode := hs.mode
  simp only [modeInv, hm] at hmode
  obtain ⟨hk, hf, -⟩ := hmode
  have hacc := hs.acc
  have hlt := s.bsNacc.isLt
  simp only [Config.hdr] at hf
  simp only [Config.maxTotal] at ht
  obtain ⟨st, h, w, e, o, f⟩ := flushBytes_spec ((s.bsNacc.toNat + n) / 8) (Config.hdr + s.bsTotal.toNat / 8) (s.bsNacc.toNat + n)
    (s.bsAcc.toNat * 2 ^ n + lowBits value n) s.storage (by omega) hs.storage (by simp only [Config.hdr]; omega)
    (by simp only [Config.hdr, Config.storeMax]; omega)
  have hbuf : s.bsAcc.toNat * 2 ^ n + lowBits value n < 2 ^ (s.bsNacc.toNat + n) := by
    have : lowBits value n < 2 ^ n := Nat.mod_lt _ (by positivity)
    calc s.bsAcc.toNat * 2 ^ n + lowBits value n < (s.bsAcc.toNat + 1) * 2 ^ n := by rw [Nat.add_mul]; omega
      _ ≤ 2 ^ s.bsNacc.toNat * 2 ^ n := Nat.mul_le_mul_right _ hacc
      _ = 2 ^ (s.bsNacc.toNat + n) := by rw [pow_add]
  generalize hb : s.bsAcc.toNat * 2 ^ n + lowBits value n = buf at *
  have hmod : (s.bsNacc.toNat + n) - 8 * ((s.bsNacc.toNat + n) / 8) = (s.bsNacc.toNat + n) % 8 := by omega
  have hleft : (if (s.bsNacc.toNat + n) / 8 = 0 then buf else buf % 2 ^ (s.bsNacc.toNat + n - 8 * ((s.bsNacc.toNat + n) / 8))) =
      buf % 2 ^ ((s.bsNacc.toNat + n) % 8) := by
    split
    · rename_i h0
      rw [Nat.mod_eq_of_lt (b := 2 ^ ((s.bsNacc.toNat + n) % 8))]
      rwa [show (s.bsNacc.toNat + n) % 8 = s.bsNacc.toNat + n by omega]
    · rw [hmod]
  rw [hleft] at h
  have hacc' : buf % 2 ^ ((s.bsNacc.toNat + n) % 8) < 2 ^ 7 :=
    lt_of_lt_of_le (Nat.mod_lt _ (by positivity)) (Nat.pow_le_pow_right (by decide) (by omega))
  have hx : appendBits n value s = .next (State.withResponse { s with
      storage := st, bsAcc := BitVec.ofNat 7 (buf % 2 ^ ((s.bsNacc.toNat + n) % 8)),
      bsNacc := BitVec.ofNat 3 ((s.bsNacc.toNat + n) % 8), bsTotal := BitVec.ofNat 32 (s.bsTotal.toNat + n) } 0 0) := by
    simp only [appendBits, hb, h, respond_eq]
  refine ⟨_, hx, rfl, ?_, ?_, ?_, ?_, ?_, w, ?_, fun a ha => o a (.inl ?_), rfl, rfl, rfl,
    ⟨rfl, rfl⟩, rfl, rfl⟩
  · simp only [withResponse_bsTotal, BitVec.toNat_ofNat]; omega
  · simp only [withResponse_bsNacc, BitVec.toNat_ofNat]; omega
  · simp only [withResponse_bsAcc, BitVec.toNat_ofNat]; exact Nat.mod_eq_of_lt hacc'
  · simp only [withResponse_bsNacc, withResponse_bsAcc, BitVec.toNat_ofNat]
    rw [Nat.mod_eq_of_lt hacc', Nat.mod_eq_of_lt (show (s.bsNacc.toNat + n) % 8 < 2 ^ 3 by omega)]
    exact Nat.mod_lt _ (by positivity)
  · simp only [State.appended, withResponse_storage, withResponse_bsTotal, withResponse_bsNacc, withResponse_bsAcc,
      BitVec.toNat_ofNat]
    rw [Nat.mod_eq_of_lt hacc', Nat.mod_eq_of_lt (show (s.bsNacc.toNat + n) % 8 < 2 ^ 3 by omega),
      Nat.mod_eq_of_lt (show s.bsTotal.toNat + n < 2 ^ 32 by omega),
      show 8 * ((s.bsTotal.toNat + n) / 8) = 8 * (s.bsTotal.toNat / 8) + 8 * ((s.bsNacc.toNat + n) / 8) by omega,
      Storage.payloadBits_add, Nat.zero_add, flushed_bits (by omega) e, bitsOf_mod, List.append_assoc, hmod, ← bitsOf_add,
      show 8 * ((s.bsNacc.toNat + n) / 8) + (s.bsNacc.toNat + n) % 8 = s.bsNacc.toNat + n by omega, ← hb, lowBits, bitsOf_buffer,
      ← List.append_assoc]
    congr 2
    refine Storage.payloadBits_congr fun i _ hi => o _ (.inl ?_)
    simp only [Config.hdr]; omega
  · simp only [withResponse_storage]
    rw [f]; simp only [Config.hdr]; omega
  · simp only [Config.hdr]; omega

/-- Everything BS.READ does after its tests, when its bits lie in the Storage (R125). -/
theorem takeBits_spec (n : Nat) (s : State)
    (h : Config.hdr + ceil8 (s.bsLen.toNat - s.bsRemain.toNat + n) ≤ s.storage.fileSize) :
    takeBits n s = .next (State.withResponse { s with bsRemain := BitVec.ofNat 32 (s.bsRemain.toNat - n) } 0
      (BitVec.ofNat 32 (bitsValue (s.storage.payloadBits (s.bsLen.toNat - s.bsRemain.toNat) n)))) := by
  simp only [takeBits, readRun_spec _ _ _ _ h, respond_eq, Nat.zero_mul, Nat.zero_add]

/-- Everything the write arm of BS.CLOSE does, in a write session that meets the invariant (R128). -/
theorem closeWrite_spec (s : State) (hs : s.Inv) (hm : s.bsMode = .write) :
    ∃ st, closeWrite s = .next (State.withResponse { s with storage := st, bsAcc := 0, bsNacc := 0, bsMode := .idle } 0 0) ∧
      Storage.wf st ∧ (∀ j < 4, st.byte j = (headerBytes s.bsTotal.toNat).getD j 0) ∧
      (0 < s.bsNacc.toNat → (st.byte (4 + s.bsTotal.toNat / 8)).toNat = s.bsAcc.toNat * 2 ^ (8 - s.bsNacc.toNat)) ∧
      (∀ a, 4 ≤ a → (0 < s.bsNacc.toNat → a ≠ 4 + s.bsTotal.toNat / 8) → st.byte a = s.storage.byte a) ∧
      st.fileSize = 4 + ceil8 s.bsTotal.toNat := by
  have hmode := hs.mode
  simp only [modeInv, hm] at hmode
  obtain ⟨hk, hf, -⟩ := hmode
  have hlt := s.bsTotal.isLt
  have hacc := hs.acc
  simp only [Config.hdr] at hf
  have hpad : (padBytes s).length = if 0 < s.bsNacc.toNat then 1 else 0 := by unfold padBytes; split <;> rfl
  obtain ⟨s1, h1, w1, e1, o1, f1⟩ := Storage.memWriteRun_spec (padBytes s) s.storage (Config.hdr + s.bsTotal.toNat / 8) hs.storage
    (by simp only [Config.hdr]; omega) (by rw [hpad]; simp only [Config.hdr, Config.storeMax]; split <;> omega)
  simp only [Config.hdr] at h1 e1 o1 f1
  rw [hpad] at f1 o1
  obtain ⟨s2, h2, w2, e2, o2, f2⟩ := Storage.memWriteRun_spec (headerBytes s.bsTotal.toNat) s1 0 w1 (by omega)
    (by simp [Config.storeMax])
  simp only [headerBytes_length, Nat.zero_add] at e2 o2 f2
  refine ⟨s2, by simp only [closeWrite, Config.hdr, h1, h2, respond_eq], w2, e2, fun hp => ?_, fun a ha hne => ?_, ?_⟩
  · rw [o2 _ (.inr (by omega))]
    have := e1 0 (by rw [hpad, if_pos hp]; omega)
    rw [Nat.add_zero] at this
    rw [this]
    simp only [padBytes, hp, if_true, List.getD_cons_zero, BitVec.toNat_ofNat]
    refine Nat.mod_eq_of_lt ?_
    have h7 := s.bsNacc.isLt
    calc s.bsAcc.toNat * 2 ^ (8 - s.bsNacc.toNat) < 2 ^ s.bsNacc.toNat * 2 ^ (8 - s.bsNacc.toNat) :=
          Nat.mul_lt_mul_of_pos_right hacc (by positivity)
      _ = 2 ^ 8 := by rw [← pow_add]; congr 1; omega
  · rw [o2 a (.inr ha)]
    refine o1 a ?_
    by_cases hp : 0 < s.bsNacc.toNat
    · have := hne hp; simp only [hp, if_true]; omega
    · simp only [hp, if_false]; omega
  · rw [f2, f1]
    simp only [ceil8]
    split <;> omega

end Sys2Proof.Machine
end

