-- ==== Sys2Proof/Laws/Decode.lean ====
section
/-! SUPPORT. The fields of a command word made of fields, and what an accepted word's reserved fields are. -/

namespace Sys2Proof

@[simp] theorem opField_mkWord (op aux : BitVec 8) (pay : BitVec 16) (data : BitVec 32) : opField (mkWord op aux pay data) = op := by
  apply BitVec.eq_of_getLsbD_eq
  intro i hi
  simp only [opField, mkWord, BitVec.getLsbD_extractLsb', BitVec.getLsbD_append]
  simp [hi, show ¬ 56 + i < 32 by omega, show ¬ 56 + i - 32 < 16 by omega, show ¬ 56 + i - 32 - 16 < 8 by omega,
    show 56 + i - 32 - 16 - 8 = i by omega]

@[simp] theorem auxField_mkWord (op aux : BitVec 8) (pay : BitVec 16) (data : BitVec 32) :
    auxField (mkWord op aux pay data) = aux := by
  apply BitVec.eq_of_getLsbD_eq
  intro i hi
  simp only [auxField, mkWord, BitVec.getLsbD_extractLsb', BitVec.getLsbD_append]
  simp [hi, show ¬ 48 + i < 32 by omega, show ¬ 48 + i - 32 < 16 by omega, show 48 + i - 32 - 16 = i by omega]

@[simp] theorem payField_mkWord (op aux : BitVec 8) (pay : BitVec 16) (data : BitVec 32) :
    payField (mkWord op aux pay data) = pay := by
  apply BitVec.eq_of_getLsbD_eq
  intro i hi
  simp only [payField, mkWord, BitVec.getLsbD_extractLsb', BitVec.getLsbD_append]
  simp [hi, show ¬ 32 + i < 32 by omega, show 32 + i - 32 = i by omega]

@[simp] theorem dataField_mkWord (op aux : BitVec 8) (pay : BitVec 16) (data : BitVec 32) :
    dataField (mkWord op aux pay data) = data := by
  apply BitVec.eq_of_getLsbD_eq
  intro i hi
  simp only [dataField, mkWord, BitVec.getLsbD_extractLsb', BitVec.getLsbD_append]
  simp [hi]

/-- A word is made of its fields (R75). -/
theorem mkWord_fields (w : CmdWord) : mkWord (opField w) (auxField w) (payField w) (dataField w) = w := by
  apply BitVec.eq_of_getLsbD_eq
  intro i hi
  simp only [opField, auxField, payField, dataField, mkWord, BitVec.getLsbD_append, BitVec.getLsbD_extractLsb']
  by_cases h1 : i < 32
  · simp [h1]
  · by_cases h2 : i - 32 < 16
    · simp [h1, h2, show 32 + (i - 32) = i by omega]
    · by_cases h3 : i - 32 - 16 < 8
      · simp [h1, h2, h3, show 48 + (i - 32 - 16) = i by omega]
      · simp [h1, h2, h3, show i - 32 - 16 - 8 < 8 by omega, show 56 + (i - 32 - 16 - 8) = i by omega]

/-- A word is its four fields. -/
theorem eq_mkWord_of_fields {w : CmdWord} {op aux : BitVec 8} {pay : BitVec 16} {data : BitVec 32} (h1 : opField w = op)
    (h2 : auxField w = aux) (h3 : payField w = pay) (h4 : dataField w = data) : w = mkWord op aux pay data := by
  rw [← mkWord_fields w, h1, h2, h3, h4]

@[simp] theorem opField_and (x y : CmdWord) : opField (x &&& y) = opField x &&& opField y := BitVec.extractLsb'_and

@[simp] theorem auxField_and (x y : CmdWord) : auxField (x &&& y) = auxField x &&& auxField y := BitVec.extractLsb'_and

@[simp] theorem payField_and (x y : CmdWord) : payField (x &&& y) = payField x &&& payField y := BitVec.extractLsb'_and

@[simp] theorem dataField_and (x y : CmdWord) : dataField (x &&& y) = dataField x &&& dataField y := BitVec.extractLsb'_and

/-- Masking a word masks its fields. -/
theorem mkWord_and (o a o' a' : BitVec 8) (p p' : BitVec 16) (d d' : BitVec 32) :
    mkWord o a p d &&& mkWord o' a' p' d' = mkWord (o &&& o') (a &&& a') (p &&& p') (d &&& d') :=
  eq_mkWord_of_fields (by simp) (by simp) (by simp) (by simp)

/-- Two words are equal exactly when their fields are. -/
theorem mkWord_inj {o a o' a' : BitVec 8} {p p' : BitVec 16} {d d' : BitVec 32} :
    mkWord o a p d = mkWord o' a' p' d' ↔ o = o' ∧ a = a' ∧ p = p' ∧ d = d' := by
  constructor
  · intro h
    exact ⟨by simpa using congrArg opField h, by simpa using congrArg auxField h, by simpa using congrArg payField h,
      by simpa using congrArg dataField h⟩
  · rintro ⟨rfl, rfl, rfl, rfl⟩; rfl

/-- What a row selects (R83). -/
theorem OpRow.selects_iff (r : OpRow) (w : CmdWord) :
    r.selects w = true ↔ w &&& r.mask = r.matchBits ∧ (auxField w).toNat ≤ r.auxMax := by
  simp [OpRow.selects]

theorem checkReserved_eq_ok {z : Bool} {i j : Instr} : checkReserved z i = .ok j ↔ z = true ∧ i = j := by
  unfold checkReserved; split <;> simp_all

end Sys2Proof
end

