-- ==== Sys2Proof/Laws/Exec.lean ====
section
/-! SUPPORT. What a command can do, said once: it raises one of the block's fault kinds and changes nothing else, or it completes. -/

namespace Sys2Proof.Machine

/-- How a command that answers next ends: it raised a kind the block raises, or it completed with a response and left `ERRLOG` and the
moves to come. -/
inductive Ends (i : Instr) (s : State) : State → Prop where
  | raised (k : FaultKind) (h5 : k ≠ .internalInvariantError) (h6 : k ≠ .symbolNotInTableError) : Ends i s (s.withFault k)
  | completed (u : State) (p : BitVec 16) (d : BitVec 32) (he : u.errlog = s.errlog) (hm : u.moves = s.moves)
      (hp : i ≠ .pqRemoveMin → p = 0) : Ends i s (u.withResponse p d)

/-- Every command that answers next ends in one of the two ways (R10, R211). -/
theorem exec_ends {i : Instr} {s t : State} (h : exec i s = .next t) : Ends i s t := by
  cases i with
  | pqInsert p w =>
    simp only [exec, execPqInsert] at h
    split at h
    · cases h; exact .raised _ nofun nofun
    · cases h; exact .completed _ _ _ rfl rfl fun _ => rfl
  | pqRemoveMin =>
    simp only [exec, execPqRemoveMin] at h
    split at h
    · cases h; exact .raised _ nofun nofun
    · split at h
      · cases h
      · cases h; exact .completed _ _ _ rfl rfl fun hp => absurd rfl hp
  | pqSize => cases h; exact .completed _ _ _ rfl rfl fun _ => rfl
  | bsOpen mode =>
    simp only [exec, execBsOpen] at h
    split at h
    · cases h; exact .raised _ nofun nofun
    · split at h
      · cases h; exact .raised _ nofun nofun
      · split at h
        · obtain ⟨st, hx, -⟩ := openWrite_spec s
          rw [hx] at h
          cases h; exact .completed _ _ _ rfl rfl fun _ => rfl
        · unfold openRead at h
          split at h
          · cases h; exact .raised _ nofun nofun
          · split at h
            · cases h
            · split at h
              · cases h; exact .raised _ nofun nofun
              · cases h; exact .completed _ _ _ rfl rfl fun _ => rfl
  | bsWrite n v =>
    simp only [exec, execBsWrite] at h
    split at h
    · cases h; exact .raised _ nofun nofun
    split at h
    · cases h; exact .raised _ nofun nofun
    split at h
    · cases h; exact .raised _ nofun nofun
    split at h
    · cases h; exact .raised _ nofun nofun
    unfold appendBits at h
    split at h
    · cases h
    · cases h; exact .completed _ _ _ rfl rfl fun _ => rfl
  | bsRead n =>
    simp only [exec, execBsRead] at h
    split at h
    · cases h; exact .raised _ nofun nofun
    split at h
    · cases h; exact .raised _ nofun nofun
    split at h
    · cases h; exact .raised _ nofun nofun
    split at h
    · cases h
    split at h
    · cases h; exact .raised _ nofun nofun
    unfold takeBits at h
    split at h
    · cases h
    · cases h; exact .completed _ _ _ rfl rfl fun _ => rfl
  | bsMore =>
    simp only [exec, execBsMore] at h
    split at h
    · cases h; exact .raised _ nofun nofun
    · split at h <;> · cases h; exact .completed _ _ _ rfl rfl fun _ => rfl
  | bsClose =>
    simp only [exec, execBsClose] at h
    split at h
    · cases h; exact .raised _ nofun nofun
    · unfold closeWrite at h
      split at h
      · cases h
      · split at h
        · cases h
        · cases h; exact .completed _ _ _ rfl rfl fun _ => rfl
    · cases h; exact .completed _ _ _ rfl rfl fun _ => rfl
  | rdReg r =>
    simp only [exec, execRdReg] at h
    split at h
    · cases h; exact .raised _ nofun nofun
    · cases h; exact .completed _ _ _ rfl rfl fun _ => rfl

/-- No command is refused: every one of the nine has its meaning. -/
theorem exec_not_refused (i : Instr) (s : State) (r : Refusal) : exec i s ≠ .refused r := by
  intro h
  cases i with
  | pqInsert p w => simp only [exec, execPqInsert] at h; split at h <;> cases h
  | pqRemoveMin => simp only [exec, execPqRemoveMin] at h; repeat' split at h
                   all_goals cases h
  | pqSize => cases h
  | bsOpen mode =>
    simp only [exec, execBsOpen, openWrite, openRead] at h; repeat' split at h
    all_goals cases h
  | bsWrite n v =>
    simp only [exec, execBsWrite, appendBits] at h; repeat' split at h
    all_goals cases h
  | bsRead n =>
    simp only [exec, execBsRead, takeBits] at h; repeat' split at h
    all_goals cases h
  | bsMore => simp only [exec, execBsMore] at h; repeat' split at h
              all_goals cases h
  | bsClose =>
    simp only [exec, execBsClose, closeWrite, closeRead] at h; repeat' split at h
    all_goals cases h
  | rdReg r => simp only [exec, execRdReg] at h; split at h <;> cases h

/-- Raising a fault keeps the invariant: only `ERRLOG` and the response change. -/
theorem State.Inv.withFault {s : State} (h : s.Inv) (k : FaultKind) (h5 : k ≠ .internalInvariantError)
    (h6 : k ≠ .symbolNotInTableError) : (s.withFault k).Inv :=
  ⟨h.count, h.capacity, h.sorted, h.acc, h.remain, errlogAfter_legal h.errlog h5 h6, h.storage, h.mode⟩

/-- A response changes nothing the invariant speaks of. -/
theorem State.Inv.withResponse {s : State} (h : s.Inv) (p : BitVec 16) (d : BitVec 32) : (s.withResponse p d).Inv :=
  ⟨h.count, h.capacity, h.sorted, h.acc, h.remain, h.errlog, h.storage, h.mode⟩

end Sys2Proof.Machine
end

