-- ==== Sys2Proof/Laws/PerInstr.lean ====
section
/-! SUPPORT. One lemma per command about its word: the encoded word carries the row's match bits under the row's mask
(spec/30_encoding.md R83, R85). -/

namespace Sys2Proof.Laws.EncodesInRow

/-- The command's word satisfies the match and mask of its own row of the opcode map (R83). -/
def Statement (i : Instr) : Prop := encode i &&& i.row.mask = i.row.matchBits

/-- A word made of fields, masked by a mask of whole fields. -/
theorem masked (op aux a m : BitVec 8) (pay p q : BitVec 16) (data d r : BitVec 32) (ha : aux &&& m = a) (hp : pay &&& q = p)
    (hd : data &&& r = d) : mkWord op aux pay data &&& mkWord 0xFF#8 m q r = mkWord op a p d := by
  rw [mkWord_and, ha, hp, hd]
  congr 1
  exact BitVec.and_allOnes (x := op)

theorem pqInsert (payload : BitVec 16) (weight : BitVec 32) : Statement (.pqInsert payload weight) :=
  masked 0x10#8 _ 0#8 0xFF#8 _ 0#16 0#16 _ 0#32 0#32 (by decide) BitVec.and_zero BitVec.and_zero

theorem pqRemoveMin : Statement (.pqRemoveMin) :=
  masked 0x11#8 _ 0#8 0xFF#8 _ 0#16 0xFFFF#16 _ 0#32 0xFFFFFFFF#32 (by decide) (by decide) (by decide)

theorem pqSize : Statement (.pqSize) :=
  masked 0x12#8 _ 0#8 0xFF#8 _ 0#16 0xFFFF#16 _ 0#32 0xFFFFFFFF#32 (by decide) (by decide) (by decide)

theorem bsOpen (mode : BitVec 8) : Statement (.bsOpen mode) :=
  masked 0x20#8 _ 0#8 0#8 _ 0#16 0xFFFF#16 _ 0#32 0xFFFFFFFF#32 BitVec.and_zero (by decide) (by decide)

theorem bsWrite (n : BitVec 8) (value : BitVec 32) : Statement (.bsWrite n value) :=
  masked 0x21#8 _ 0#8 0#8 _ 0#16 0xFFFF#16 _ 0#32 0#32 BitVec.and_zero (by decide) BitVec.and_zero

theorem bsRead (n : BitVec 8) : Statement (.bsRead n) :=
  masked 0x22#8 _ 0#8 0#8 _ 0#16 0xFFFF#16 _ 0#32 0xFFFFFFFF#32 BitVec.and_zero (by decide) (by decide)

theorem bsMore : Statement (.bsMore) :=
  masked 0x23#8 _ 0#8 0xFF#8 _ 0#16 0xFFFF#16 _ 0#32 0xFFFFFFFF#32 (by decide) (by decide) (by decide)

theorem bsClose : Statement (.bsClose) :=
  masked 0x24#8 _ 0#8 0xFF#8 _ 0#16 0xFFFF#16 _ 0#32 0xFFFFFFFF#32 (by decide) (by decide) (by decide)

theorem rdReg (num : BitVec 8) : Statement (.rdReg num) :=
  masked 0x30#8 _ 0#8 0#8 _ 0#16 0xFFFF#16 _ 0#32 0xFFFFFFFF#32 BitVec.and_zero (by decide) (by decide)

end Sys2Proof.Laws.EncodesInRow
end

