-- ==== Sys2Proof/Laws/Runs.lean ====
section
/-! SUPPORT. Runs of commands, and the client's calls: how a run splits, and what a call that is done says of the command it gave. -/

namespace Sys2Proof.Machine

/-- The response word is what the reply field holds. -/
theorem reply_of_response {s : State} {w : RespWord} (h : s.response = some w) : s.reply = .response w := by
  unfold State.response at h; split at h <;> simp_all

/-- A run of one more command in front. -/
theorem runCommands_cons {i : Instr} {is : List Instr} {s t u : State} {w : RespWord} {ws : List RespWord} (h : exec i s = .next t)
    (hr : t.reply = .response w) (hrun : runCommands is t = some (u, ws)) : runCommands (i :: is) s = some (u, w :: ws) := by
  simp only [runCommands, h, State.response, hr, hrun]

/-- A run of two parts is the second part run from where the first one ends. -/
theorem runCommands_append (a b : List Instr) (s t : State) (ws : List RespWord)
    (h : runCommands a s = some (t, ws)) :
    runCommands (a ++ b) s = (runCommands b t).map fun p => (p.1, ws ++ p.2) := by
  induction a generalizing s ws with
  | nil => cases h; simp
  | cons i is ih =>
    simp only [runCommands] at h
    simp only [List.cons_append, runCommands]
    cases hi : exec i s with
    | next s' =>
      simp only [hi] at h ⊢
      cases hr : s'.response with
      | none => simp [hr] at h
      | some w =>
        simp only [hr] at h ⊢
        cases hx : runCommands is s' with
        | none => simp [hx] at h
        | some p =>
          obtain ⟨u, us⟩ := p
          simp only [hx] at h
          cases h
          rw [ih s' us hx]
          cases runCommands b t <;> simp
    | fault f => simp [hi] at h
    | refused f => simp [hi] at h

end Sys2Proof.Machine

namespace Sys2Proof.Client

open Sys2Proof.Machine

/-- Issuing a command the decoder reads back steps as the command itself. -/
theorem step_call {i : Instr} (hd : decode (encode i) = .ok i) (s : State) :
    step { s with moves := .issue (encode i) :: s.moves } = exec i s := by
  simp only [step, runWord, hd]

/-- A call that is done gave a command that completed with that response. -/
theorem call_done {i : Instr} (hd : decode (encode i) = .ok i) {s t : State} {w : RespWord} (h : call i s = .done w t) :
    exec i s = .next t ∧ t.reply = .response w ∧ respStatus w = 0 := by
  simp only [call, step_call hd] at h
  split at h
  · rename_i t' hx
    cases exec_ends hx with
    | raised k h5 h6 =>
      simp only [withFault_reply, respStatus_respWord, kindOfStatus_code] at h
      cases h
    | completed u p d he hm hp =>
      simp only [withResponse_reply, respStatus_respWord] at h
      cases h
      exact ⟨hx, rfl, by simp⟩
  · cases h
  · cases h

/-- A call of a command that completes is done with its response. -/
theorem call_of {i : Instr} (hd : decode (encode i) = .ok i) {s t : State} {w : RespWord} (h : exec i s = .next t)
    (hr : t.reply = .response w) (h0 : respStatus w = 0) : call i s = .done w t := by
  simp only [call, step_call hd, h, hr, h0]; rfl

/-- A procedure that goes on after another is done only where both are. -/
theorem andThen_done {α β : Type} {r : Ran α} {f : α → State → Ran β} {b : β} {t : State} (h : r.andThen f = .done b t) :
    ∃ a s, r = .done a s ∧ f a s = .done b t := by
  cases r <;> simp_all [Ran.andThen]

/-! ## Emitting procedures -/

@[simp] theorem silent_output {α : Type} (r : Ran α) : r.silent.output = [] := rfl
@[simp] theorem silent_ending {α : Type} (r : Ran α) : r.silent.ending = r := rfl
@[simp] theorem after_output {α : Type} (c : Byte) (r : Emitted α) : (r.after c).output = c :: r.output := rfl
@[simp] theorem after_ending {α : Type} (c : Byte) (r : Emitted α) : (r.after c).ending = r.ending := rfl
@[simp] theorem emitted_andThen_output {α β : Type} (r : Emitted α) (f : α → State → Ran β) : (r.andThen f).output = r.output := rfl
@[simp] theorem emitted_andThen_ending {α β : Type} (r : Emitted α) (f : α → State → Ran β) :
    (r.andThen f).ending = r.ending.andThen f := rfl
@[simp] theorem done_thenEmits {α β : Type} (a : α) (s : State) (f : α → State → Emitted β) : (Ran.done a s).thenEmits f = f a s := rfl

/-- What a procedure that goes on can have emitted: what the rest emitted, or nothing where it stopped at once. -/
theorem thenEmits_output {α β : Type} (r : Ran α) (f : α → State → Emitted β) :
    (∃ a s, r = .done a s ∧ r.thenEmits f = f a s) ∨ (r.thenEmits f).output = [] := by
  cases r with
  | done a s => exact .inl ⟨a, s, rfl, rfl⟩
  | failed k s => exact .inr rfl
  | declined s => exact .inr rfl
  | stopped x => exact .inr rfl

end Sys2Proof.Client
end

