-- ==== Sys2Proof/Tests/Slice0.lean ====
section
/-! SUPPORT. Tests on words, values and states written out from spec/ (the vectors of spec/95_test_vectors.md and the rules' own examples), and for
every statement with hypotheses a witness that meets them. -/

namespace Sys2Proof.Tests

open Sys2Proof Sys2Proof.Machine Sys2Proof.Client

/-! ## States of the vectors -/

/-- The reset state with a Storage. -/
def resetWith (bytes : List Byte) : State := { State.reset with storage := Storage.ofBytes bytes }

/-- The file of the concrete scenario (S1). -/
def fileS1 : List Byte := [0, 0, 0, 0x0E, 0x0F, 0xE8]

/-- Idle over the file of S1 (V42, row 7). -/
def sIdle : State := resetWith fileS1

/-- Read mode over the file of S1 with nine bits left (V41). -/
def sRead : State := { sIdle with bsMode := .read, bsLen := 14, bsRemain := 9 }

/-- Read mode with no bit left (V38 to V40 in small). -/
def sReadEnd : State := { sRead with bsRemain := 0 }

/-- Write mode of R124's example. -/
def sWrite : State := { resetWith [0, 0, 0, 0] with bsMode := .write, bsTotal := 6, bsAcc := 3, bsNacc := 6 }

/-- Write mode after V22: 79 bits appended, seven pending. -/
def sV22 : State :=
  { resetWith [0, 0, 0, 0, 0xE1, 0xA5, 0xC3, 0xF0, 0x0F, 0x12, 0x34, 0x56, 0x78] with
    bsMode := .write, bsTotal := 79, bsAcc := 127, bsNacc := 7, errlog := 8 }

/-- Write mode of R128's example: S1's fourteen bits, six pending. -/
def sClose : State := { resetWith [0, 0, 0, 0, 0x0F] with bsMode := .write, bsTotal := 14, bsAcc := 0x3A, bsNacc := 6 }

/-- Write mode at the limit (V43). -/
def sLimit : State :=
  { State.reset with bsMode := .write, bsTotal := 4294967290, bsAcc := 0, bsNacc := 2, storage := ⟨[], 536870915⟩ }

/-- The OPL after V5. -/
def sOpl : State := { State.reset with opl := [⟨7, 2⟩, ⟨9, 5⟩, ⟨8, 5⟩], pqCount := 3 }

/-- A full OPL's count (V12). -/
def sFull : State := { State.reset with pqCount := 256 }

/-- Read mode at payload bit 79 of the file of run B (V36f). -/
def sV36 : State :=
  { resetWith [0, 0, 0, 0x6F, 0xE1, 0xA5, 0xC3, 0xF0, 0x0F, 0x12, 0x34, 0x56, 0x78, 0xFF, 0, 0, 0, 2] with
    bsMode := .read, bsTotal := 111, bsLen := 111, bsRemain := 32, errlog := 8 }

/-- The response word of one command. -/
def answer (i : Instr) (s : State) : Option RespWord := (nextOf (exec i s)).bind State.response

/-- `x[0]` to `x[8]` as the vectors write them. -/
def regsOf (s : State) : List (Option (BitVec 32)) := (List.range 9).map (readReg s)

/-- The registers after one command. -/
def regsAfter (i : Instr) (s : State) : Option (List (Option (BitVec 32))) := (nextOf (exec i s)).map regsOf

/-- The Storage's bytes after one command. -/
def bytesAfter (i : Instr) (s : State) : Option (List Byte) := (nextOf (exec i s)).map fun t => t.storage.bytes

/-- The OPL after one command. -/
def oplAfter (i : Instr) (s : State) : Option (List Entry) := (nextOf (exec i s)).map State.opl

/-- What a client procedure ends with. -/
def resultOf {α : Type} (r : Ran α) : Option α :=
  match r with
  | .done a _ => some a
  | .failed _ _ => none
  | .declined _ => none
  | .stopped _ => none

/-- The output of a decode that ended without a fault. -/
def decodedOf (r : Emitted Unit) : Option (List Byte) := (resultOf r.ending).map fun _ => r.output

/-- The kind a decode surfaces, the symbols emitted before it, and the registers at the end. -/
def faultOf (r : Emitted Unit) : Option (FaultKind × List Byte × List (Option (BitVec 32))) :=
  match r.ending with
  | .failed k s => some (k, r.output, regsOf s)
  | .done _ _ => none
  | .declined _ => none
  | .stopped _ => none

/-! ## Well-formedness: an ill-formed command for each check -/

theorem test_wf_write_count : Instr.wf (.bsWrite 33 0) = false ∧ Instr.wf (.bsWrite 32 0) = true := by decide
theorem test_wf_read_count : Instr.wf (.bsRead 33) = false ∧ Instr.wf (.bsRead 32) = true := by decide
theorem test_wf_register : Instr.wf (.rdReg 9) = false ∧ Instr.wf (.rdReg 8) = true := by decide

/-! ## Decoding: words of the vectors (V5, V2, V1, V26, V23, V41, V37, V28, V30), and V47's illegal ones -/

theorem test_decode_pqInsert : decode 0x1000000BFFFFFFFF#64 = .ok (.pqInsert 11 0xFFFFFFFF#32) := by rfl
theorem test_decode_pqRemoveMin : decode 0x1100000000000000#64 = .ok .pqRemoveMin := by rfl
theorem test_decode_pqSize : decode 0x1200000000000000#64 = .ok .pqSize := by rfl
theorem test_decode_bsOpen : decode 0x2002000000000000#64 = .ok (.bsOpen 2) := by rfl
theorem test_decode_bsWrite : decode 0x2120000080000001#64 = .ok (.bsWrite 32 0x80000001#32) := by rfl
theorem test_decode_bsRead : decode 0x220A000000000000#64 = .ok (.bsRead 10) := by rfl
theorem test_decode_bsMore : decode 0x2300000000000000#64 = .ok .bsMore := by rfl
theorem test_decode_bsClose : decode 0x2400000000000000#64 = .ok .bsClose := by rfl
theorem test_decode_rdReg : decode 0x3007000000000000#64 = .ok (.rdReg 7) := by rfl

/-- V47. -/
theorem test_illegal_words :
    decode 0x0000000000000000#64 = .error .unknownOpcode ∧ decode 0x1300000000000000#64 = .error .unknownOpcode ∧
    decode 0xFFFFFFFFFFFFFFFF#64 = .error .unknownOpcode ∧ decode 0x1101000000000000#64 = .error .reservedNotZero ∧
    decode 0x1200000000000001#64 = .error .reservedNotZero ∧ decode 0x2300000100000000#64 = .error .reservedNotZero ∧
    decode 0x2000000000000001#64 = .error .reservedNotZero ∧ decode 0x1001000000000000#64 = .error .reservedNotZero ∧
    decode 0x2101000100000000#64 = .error .reservedNotZero ∧ decode 0x2201000000000001#64 = .error .reservedNotZero ∧
    decode 0x2121000000000000#64 = .error .bitCountTooLarge ∧ decode 0x22FF000000000000#64 = .error .bitCountTooLarge ∧
    decode 0x3009000000000000#64 = .error .registerTooLarge := ⟨rfl, rfl, rfl, rfl, rfl, rfl, rfl, rfl, rfl, rfl, rfl, rfl, rfl⟩

/-- From the reset state the next step runs the placed word, whole, as the table numbers its bits: PQ.SIZE answers 0 (V1), the all-zero word is
`IllegalCommand` (V47). -/
theorem test_first_step_after_reset :
    decodeTableWord 64 0x1200000000000000 = some .pqSize ∧ decodeTableWord 64 0 = none ∧
    (nextOf (step (State.reset.withFetchWord 64 0x1200000000000000))).bind State.response = some 0x0000000000000000#64 ∧
    (nextOf (step (State.reset.withFetchWord 64 0))).bind State.response = some 0x0900000000000000#64 := by decide

/-! ## OPL (V2, V5, V7, V12, V11) -/

theorem test_pqInsert_tie : oplAfter (.pqInsert 9 5) { sOpl with opl := [⟨7, 2⟩, ⟨8, 5⟩], pqCount := 2 } =
    some [⟨7, 2⟩, ⟨9, 5⟩, ⟨8, 5⟩] := by decide
theorem test_pqInsert_unsigned : oplAfter (.pqInsert 11 0xFFFFFFFF#32) sOpl = some [⟨7, 2⟩, ⟨9, 5⟩, ⟨8, 5⟩, ⟨11, 0xFFFFFFFF#32⟩] ∧
    answer (.pqInsert 999 1) sFull = some 0x0700000000000000#64 := by decide
theorem test_pqRemoveMin_head : answer .pqRemoveMin sOpl = some 0x0000000700000002#64 ∧
    oplAfter .pqRemoveMin sOpl = some [⟨9, 5⟩, ⟨8, 5⟩] := by decide
theorem test_pqRemoveMin_empty : answer .pqRemoveMin State.reset = some 0x0400000000000000#64 ∧
    regsAfter .pqRemoveMin State.reset = some [some 0, some 0, some 0, some 0, some 0, some 0, some 0, some 4, some 0] := by decide
theorem test_pqSize : answer .pqSize sOpl = some 0x0000000000000003#64 ∧ answer .pqSize sFull = some 0x0000000000000100#64 := by decide

/-! ## BSC in write mode (V15, V17, V23, V25, V26, V28, V43) -/

theorem test_open_write_discards : bytesAfter (.bsOpen 0) (resetWith [0xDE, 0xAD, 0xBE, 0xEF, 1, 2, 3]) = some [0, 0, 0, 0] ∧
    regsAfter (.bsOpen 0) (resetWith [0xDE, 0xAD, 0xBE, 0xEF, 1, 2, 3]) =
      some [some 1, some 0, some 0, some 0, some 0, some 0, some 0, some 0, some 4] := by decide
theorem test_open_priority : answer (.bsOpen 2) sWrite = some 0x0100000000000000#64 ∧
    answer (.bsOpen 0) sWrite = some 0x0800000000000000#64 ∧ answer (.bsOpen 5) State.reset = some 0x0100000000000000#64 := by decide
theorem test_write_flushes : bytesAfter (.bsWrite 2 3) sWrite = some [0, 0, 0, 0, 0x0F] ∧
    regsAfter (.bsWrite 2 3) sWrite = some [some 1, some 8, some 0, some 0, some 0, some 0, some 0, some 0, some 5] := by decide
theorem test_write_39_bits :
    bytesAfter (.bsWrite 32 0x80000001#32) sV22 =
      some [0, 0, 0, 0, 0xE1, 0xA5, 0xC3, 0xF0, 0x0F, 0x12, 0x34, 0x56, 0x78, 0xFF, 0, 0, 0] ∧
    regsAfter (.bsWrite 32 0x80000001#32) sV22 =
      some [some 1, some 111, some 0, some 0, some 1, some 7, some 0, some 8, some 17] := by decide
theorem test_write_limit : answer (.bsWrite 6 0) sLimit = some 0x0700000000000000#64 ∧
    (nextOf (exec (.bsWrite 5 0x1F) sLimit)).map (fun t => (t.bsTotal, t.bsAcc, t.bsNacc)) = some (4294967295, 31, 7) := by decide
theorem test_write_ignores_high_bits : (nextOf (exec (.bsWrite 3 0xFFFFFFFF#32)
    { sWrite with bsTotal := 0, bsAcc := 0, bsNacc := 0 })).map (fun t => (t.bsTotal, t.bsAcc, t.bsNacc)) = some (3, 7, 3) := by decide
theorem test_close_write : bytesAfter .bsClose sClose = some [0, 0, 0, 0x0E, 0x0F, 0xE8] ∧
    regsAfter .bsClose sClose = some [some 0, some 14, some 0, some 0, some 0, some 0, some 0, some 0, some 6] := by decide
theorem test_close_again : answer .bsClose sIdle = some 0x0800000000000000#64 ∧
    regsAfter .bsClose sRead = some [some 0, some 0, some 14, some 9, some 0, some 0, some 0, some 0, some 6] := by decide

/-! ## BSC in read mode (V35, V36g, V37, V38, V41, V42) -/

theorem test_open_read : regsAfter (.bsOpen 1) sIdle =
    some [some 2, some 0, some 14, some 14, some 0, some 0, some 0, some 0, some 6] := by decide
theorem test_open_read_no_wrap :
    answer (.bsOpen 1) (resetWith [0xFF, 0xFF, 0xFF, 0xFF, 0, 0, 0, 0, 0, 0, 0, 0, 0, 0]) = some 0x0200000000000000#64 := by decide
theorem test_read_five_bytes : answer (.bsRead 32) sV36 = some 0x0000000080000001#64 := by decide
theorem test_read_declared_only : answer (.bsRead 10) sRead = some 0x0300000000000000#64 ∧
    answer (.bsRead 9) sRead = some 0x00000000000001FA#64 ∧ answer (.bsRead 0) sReadEnd = some 0x0000000000000000#64 := by decide
theorem test_more : answer .bsMore sRead = some 0x0000000000000001#64 ∧ answer .bsMore sReadEnd = some 0x0000000000000000#64 ∧
    answer .bsMore sIdle = some 0x0800000000000000#64 := by decide

/-! ## RDREG, `ERRLOG`, reset (V30, V49, V50, V52) -/

theorem test_rdReg_each : (List.range 9).map (fun k => answer (.rdReg (BitVec.ofNat 8 k)) { sV36 with bsRemain := 71 }) =
    [some 2#64, some 111#64, some 111#64, some 71#64, some 0#64, some 0#64, some 0#64, some 8#64, some 18#64] := by decide
theorem test_errlog_first_fault : regsAfter .bsClose { State.reset with errlog := 4 } =
    some [some 0, some 0, some 0, some 0, some 0, some 0, some 0, some 4, some 0] := by decide
theorem test_reset_keeps_storage : (nextOf (step { sClose with moves := [.reset] })).map (fun t => (regsOf t, t.storage.bytes)) =
    some ([some 0, some 0, some 0, some 0, some 0, some 0, some 0, some 0, some 5], [0, 0, 0, 0, 0x0F]) := by decide
theorem test_host_load : (nextOf (step { sIdle with moves := [.loadStorage [1, 0, 2]] })).map
    (fun t => (t.storage.bytes, t.storage.mem)) = some ([1, 0, 2], [(0, 1), (2, 2)]) := by decide
theorem test_host_read : (nextOf (step { sIdle with moves := [.readStorage] })).map State.reply = some (.storageImage fileS1) := by decide

/-! ## The assembler's text (R88, R89, V7, V20, V26, V45) -/

theorem test_assemble_numbers : assembleLine "PQ.INSERT 11, 0xFFFFFFFF".toList = some [0x1000000BFFFFFFFF#64] ∧
    assembleLine "BS.WRITE 0b101, 3 ; three bits".toList = some [0x2103000000000005#64] := by decide +kernel
theorem test_assemble_modes : assembleLine "BS.OPEN W".toList = some [0x2000000000000000#64] ∧
    assembleLine "BS.OPEN R".toList = some [0x2001000000000000#64] ∧ assembleLine "BS.OPEN #2".toList = some [0x2002000000000000#64] ∧
    assembleLine "RDREG x7".toList = some [0x3007000000000000#64] ∧ assembleLine "RDREG BS_TOTAL".toList = some [0x3001000000000000#64] ∧
    assembleLine "; only a comment".toList = some [] ∧ assembleLine "BS.FROB 1".toList = none := by decide +kernel

/-- V45: the 40-bit code whose value is `0xFEDCBA9876`. -/
theorem test_writeCode_splits : (bsWriteCode (bitsOf 0xFEDCBA9876 40)).map encode = [0x21200000FEDCBA98#64, 0x2108000000000076#64] := by
  decide +kernel

/-! ## Client procedures (S1, S2, S5, V31, V33, V34, V45) -/

/-- The tree of S1. -/
def treeS1 : Tree := .internal 9 (.leaf 0x61 4) (.internal 5 (.leaf 0x63 2) (.leaf 0x62 3))

/-- The input of S1. -/
def inputS1 : List Byte := [0x61, 0x61, 0x61, 0x61, 0x62, 0x62, 0x62, 0x63, 0x63]

theorem test_frequencies : frequencies inputS1 = [⟨0x61, 4⟩, ⟨0x62, 3⟩, ⟨0x63, 2⟩] := by decide +kernel
theorem test_tree : resultOf (buildTree [⟨0x61, 4⟩, ⟨0x62, 3⟩, ⟨0x63, 2⟩] State.reset) = some treeS1 := by decide +kernel
theorem test_codes : codeTable treeS1 = [(0x61, [false]), (0x63, [true, false]), (0x62, [true, true])] := by decide
theorem test_encode : (match encodeWith (codeTable treeS1) inputS1 State.reset with
    | .done _ t => some t.storage.bytes
    | _ => none) = some fileS1 := by decide +kernel
theorem test_decode : decodedOf (decodeWith (some treeS1) sIdle) = some inputS1 := by decide +kernel

/-- V31 and V34: one declared bit too many decodes a pad bit; one too few ends in the middle of a code, after
eight symbols. -/
theorem test_tampered_header : decodedOf (decodeWith (some treeS1) (resetWith [0, 0, 0, 0x0F, 0x0F, 0xE8])) = some (inputS1 ++ [0x61]) ∧
    faultOf (decodeWith (some treeS1) (resetWith [0, 0, 0, 0x0D, 0x0F, 0xE8])) =
      some (.truncatedStreamError, [0x61, 0x61, 0x61, 0x61, 0x62, 0x62, 0x62, 0x63],
        [some 0, some 0, some 13, some 0, some 0, some 0, some 0, some 0, some 6]) := by decide +kernel

/-- V33: the tampered header the open check catches. -/
theorem test_corrupt_header : faultOf (decodeWith (some treeS1) (resetWith [0, 0, 0, 0x11, 0x0F, 0xE8])) =
    some (.corruptInputError, [], [some 0, some 0, some 0, some 0, some 0, some 0, some 0, some 2, some 6]) := by
  decide +kernel

/-- S2 and S5. -/
theorem test_single_symbol : decodedOf (decodeWith (some (.leaf 0x61 5)) (resetWith [0, 0, 0, 5, 0])) = some (List.replicate 5 0x61) ∧
    decodedOf (decodeWith none (resetWith [0, 0, 0, 0])) = some [] := by decide +kernel

/-- P6: the tie-break decides the tree of "abcc". -/
theorem test_tie_break_file : (match encodeInput [0x61, 0x62, 0x63, 0x63] State.reset with
    | .done tree t => some (tree.map codeTable, t.storage.bytes)
    | _ => none) = some (some [(0x62, [false, false]), (0x61, [false, true]), (0x63, [true])], [0, 0, 0, 6, 0x4C]) := by decide +kernel

/-- V53: a symbol with no code stops the Encoder and leaves the session open. -/
theorem test_symbol_missing : (match encodeWith (codeTable treeS1) [0x61, 0x62, 0x64] State.reset with
    | .failed k t => some (k, regsOf t)
    | _ => none) = some (.symbolNotInTableError,
      [some 1, some 3, some 0, some 0, some 3, some 3, some 0, some 0, some 4]) := by decide +kernel

/-- The OPL with one entry left over from before a build. -/
def sLeft : State := { State.reset with opl := [⟨1000, 3⟩], pqCount := 1 }

/-- R235, by hand from R101 and R168 for the input "aab": leaf b (1) and leaf a (2) are merged first, and their node (3) stands before the
leftover entry of equal weight. -/
theorem test_leftover_entry_is_merged : resultOf (buildTree (frequencies [0x61, 0x61, 0x62]) sLeft) =
    some (.internal 6 (.internal 3 (.leaf 0x62 1) (.leaf 0x61 2)) (.stray 1000 3)) := by decide +kernel

/-- Log entry 18: a leftover entry whose payload is the symbol a's node puts the leaf a into the tree of "aab" twice (by hand from R101 and R168). The
shared leaf is the choice of log entry 15, and that "a" is then written as 01 and not as 1 that of log entry 18. -/
theorem test_shared_leaf_takes_the_leftmost_code :
    let s : State := { State.reset with opl := [⟨0x61, 1⟩], pqCount := 1 }
    (resultOf (buildTree (frequencies [0x61, 0x61, 0x62]) s)).map (fun root => (codeTable root, codeOf (codeTable root) 0x61)) =
      some ([(0x62, [false, false]), (0x61, [false, true]), (0x61, [true])], some [false, true]) := by decide +kernel

/-! ## Witnesses: for every statement with hypotheses, a state and operands that meet them, clause by clause at a boundary -/

theorem sIdle_inv : sIdle.Inv := ⟨by decide, by decide, by decide, by decide, by decide, by decide, by decide, rfl⟩
theorem sOpl_inv : sOpl.Inv := ⟨by decide, by decide, by decide, by decide, by decide, by decide, by decide, rfl⟩
theorem sRead_inv : sRead.Inv := ⟨by decide, by decide, by decide, by decide, by decide, by decide, by decide, rfl, by decide, by decide⟩
theorem sWrite_inv : sWrite.Inv := ⟨by decide, by decide, by decide, by decide, by decide, by decide, by decide, by decide, by decide, by decide⟩
theorem sV22_inv : sV22.Inv := ⟨by decide, by decide, by decide, by decide, by decide, by decide, by decide, by decide, by decide, by decide⟩
theorem sClose_inv : sClose.Inv := ⟨by decide, by decide, by decide, by decide, by decide, by decide, by decide, by decide, by decide, by decide⟩
theorem sLimit_inv : sLimit.Inv := ⟨by decide, by decide, by decide, by decide, by decide, by decide, by decide, by decide, by decide, by decide⟩

theorem test_witness_DecodeOfEncodeIsTheCommand : Instr.wf (.bsWrite 32 0xFFFFFFFF#32) = true ∧ Instr.wf (.bsRead 0) = true ∧
    Instr.wf (.rdReg 8) = true ∧ Instr.wf (.bsOpen 255) = true ∧ Instr.wf (.pqInsert 0xFFFF#16 0) = true := by decide
theorem test_witness_AcceptedWordIsItsEncoding : decode 0x21200000A5C3F00F#64 = .ok (.bsWrite 32 0xA5C3F00F#32) := by rfl
theorem test_witness_LegalWordsAreExactlyTheRows : Instr.row (.bsRead 0) ∈ opcodeTable ∧
    (Instr.row (.bsRead 0)).selects 0x2220000000000000#64 = true ∧ (Instr.row (.bsRead 0)).selects 0x2221000000000000#64 = false := by decide
theorem test_witness_StepRunsTheIssuedCommand : { sRead with moves := [.issue 0x2209000000000000#64] }.moves = .issue 0x2209000000000000#64 :: [] ∧
    decode 0x2209000000000000#64 = .ok (.bsRead 9) ∧ decodeTableWord 64 0x2209000000000000 = some (.bsRead 9) := ⟨rfl, rfl, by decide⟩
theorem test_witness_IllegalWordOnlyRespondsAndLogs : { sWrite with moves := [.issue 0x2121000000000000#64] }.moves =
    .issue 0x2121000000000000#64 :: [] ∧ decode 0x2121000000000000#64 = .error .bitCountTooLarge := ⟨rfl, rfl⟩
theorem test_witness_InsertPutsEntryBeforeEqualWeights : sFull.pqCount.toNat = 256 ∧ { sFull with pqCount := 255 }.pqCount.toNat ≠ 256 ∧
    sOpl.pqCount.toNat ≠ 256 := by decide
theorem test_witness_RemoveMinReturnsTheHead : State.reset.pqCount = 0 ∧ sOpl.pqCount ≠ 0 ∧ sOpl.opl = ⟨7, 2⟩ :: [⟨9, 5⟩, ⟨8, 5⟩] := by decide
theorem test_witness_OplOrderIsKept : oplSorted sOpl.opl ∧ (nextOf (exec (.pqInsert 1 5) sOpl)).isSome = true ∧
    (nextOf (exec .pqRemoveMin sOpl)).isSome = true := by decide
theorem test_witness_DrainReturnsTheEntriesInOrder : sOpl.Inv ∧ sOpl.opl.length = 3 := ⟨sOpl_inv, rfl⟩
theorem test_witness_InsertsThenDrainSortLastInFirstOut : State.reset.opl = [] ∧ State.reset.pqCount = 0 ∧
    (List.replicate 256 (⟨1, 5⟩ : Entry)).length ≤ 256 := ⟨rfl, rfl, by rw [List.length_replicate]⟩
theorem test_witness_OplCommandsFrame : (nextOf (exec (.pqInsert 1 5) sOpl)).isSome = true ∧ (nextOf (exec .pqRemoveMin sOpl)).isSome = true ∧
    (nextOf (exec .pqSize sOpl)).isSome = true := by decide
theorem test_witness_InvalidOpenModeRaisesConfiguration : 2 ≤ (2 : BitVec 8).toNat ∧ 2 ≤ (255 : BitVec 8).toNat := by decide
theorem test_witness_WrongModeRaisesProtocol : sWrite.bsMode ≠ .idle ∧ (1 : BitVec 8).toNat < 2 ∧ sRead.bsMode ≠ .write ∧
    (32 : BitVec 8).toNat ≤ 32 ∧ sWrite.bsMode ≠ .read ∧ sIdle.bsMode = .idle := by decide
theorem test_witness_CapacityLimitsRaise : sFull.pqCount.toNat = 256 ∧ sLimit.bsMode = .write ∧
    4294967295 < sLimit.bsTotal.toNat + (6 : BitVec 8).toNat ∧
    Config.storeMax < 4 + ceil8 (sLimit.bsTotal.toNat + (7 : BitVec 8).toNat) := by decide
theorem test_witness_OpenWriteStartsAnEmptyFile : sIdle.bsMode = .idle := rfl
theorem test_witness_OpenReadChecksTheHeader : sIdle.bsMode = .idle ∧ sIdle.storage.acceptable ∧ (resetWith [0, 0, 0]).bsMode = .idle ∧
    ¬ (resetWith [0, 0, 0]).storage.acceptable ∧ ¬ (resetWith [0, 0, 0, 9, 0xAA]).storage.acceptable := by decide
theorem test_witness_WriteAppendsTheLowOrderBits : (32 : BitVec 8).toNat ≤ 32 ∧ sRead.bsMode ≠ .write ∧ sLimit.bsMode = .write ∧
    4294967295 < sLimit.bsTotal.toNat + (6 : BitVec 8).toNat ∧ Config.storeMax < 4 + ceil8 (sLimit.bsTotal.toNat + (7 : BitVec 8).toNat) ∧
    sLimit.Inv ∧ sLimit.bsTotal.toNat + (5 : BitVec 8).toNat ≤ 4294967295 ∧
    4 + ceil8 (sLimit.bsTotal.toNat + (5 : BitVec 8).toNat) ≤ Config.storeMax :=
  ⟨by decide, by decide, rfl, by decide, by decide, sLimit_inv, by decide, by decide⟩
theorem test_witness_WriteFrame : (nextOf (exec (.bsWrite 32 0x80000001#32) sV22)).isSome = true := by decide
theorem test_witness_ReadReturnsTheNextBits : sWrite.bsMode ≠ .read ∧ sRead.bsMode = .read ∧ sRead.bsRemain.toNat < (10 : BitVec 8).toNat ∧
    (9 : BitVec 8).toNat ≤ sRead.bsRemain.toNat ∧ sRead.bsRemain.toNat ≤ sRead.bsLen.toNat ∧
    4 + ceil8 (sRead.bsLen.toNat - sRead.bsRemain.toNat + (9 : BitVec 8).toNat) ≤ sRead.storage.fileSize := by decide
theorem test_witness_ReadReturnsTheNextBits_exhausted :
    let s : State := { sRead with storage := Storage.ofBytes [0, 0, 0, 0x0E, 0x0F] }
    s.bsMode = .read ∧ (9 : BitVec 8).toNat ≤ s.bsRemain.toNat ∧ s.bsRemain.toNat ≤ s.bsLen.toNat ∧
    s.storage.fileSize < 4 + ceil8 (s.bsLen.toNat - s.bsRemain.toNat + (9 : BitVec 8).toNat) := by decide
theorem test_witness_ReadWithinTheDeclaredLengthCompletes : sRead.Inv ∧ sRead.bsMode = .read ∧ (9 : BitVec 8).toNat ≤ 32 ∧
    (9 : BitVec 8).toNat ≤ sRead.bsRemain.toNat := ⟨sRead_inv, rfl, by decide, by decide⟩
theorem test_witness_MoreReportsWhetherBitsRemain : sIdle.bsMode ≠ .read ∧ sRead.bsMode = .read ∧ 0 < sRead.bsRemain.toNat ∧
    sReadEnd.bsMode = .read ∧ ¬ 0 < sReadEnd.bsRemain.toNat := by decide
theorem test_witness_CloseWritePadsAndWritesTheHeader : sClose.Inv ∧ sClose.bsMode = .write ∧ 0 < sClose.bsNacc.toNat :=
  ⟨sClose_inv, rfl, by decide⟩
theorem test_witness_CloseLeavesTheBitFileOfTheSession : sV22.Inv ∧ sV22.bsMode = .write := ⟨sV22_inv, rfl⟩
theorem test_witness_CloseReadOnlyReleases : sRead.bsMode = .read := rfl
theorem test_witness_CloseFrame : (nextOf (exec .bsClose sClose)).isSome = true ∧ (nextOf (exec .bsClose sRead)).isSome = true ∧
    (nextOf (exec .bsClose sIdle)).isSome = true ∧ ¬ (sClose.bsMode = .write ∧ (6 < 4 ∨ 0 < sClose.bsNacc.toNat ∧ 6 = 4 + sClose.bsTotal.toNat / 8)) := by
  decide
theorem test_witness_OpenFrame : (nextOf (exec (.bsOpen 0) sIdle)).isSome = true ∧ (nextOf (exec (.bsOpen 1) sIdle)).isSome = true ∧
    (nextOf (exec (.bsOpen 0) sWrite)).isSome = true ∧ sWrite.bsMode ≠ .idle := by decide
theorem test_witness_ReadingCommandsFrame : (nextOf (exec (.bsRead 9) sRead)).isSome = true ∧ (nextOf (exec .bsMore sRead)).isSome = true ∧
    (nextOf (exec (.rdReg 3) sRead)).isSome = true := by decide
theorem test_witness_RdregReturnsTheRegister : (0 : BitVec 8).toNat ≤ 8 ∧ (8 : BitVec 8).toNat ≤ 8 ∧ 8 < (9 : BitVec 8).toNat ∧
    ((8 : BitVec 8).toNat, BitVec.ofNat 32 sRead.storage.fileSize) ∈ [(8, BitVec.ofNat 32 sRead.storage.fileSize)] := by decide
theorem test_witness_FaultChangesNothingButErrlog : answer .pqRemoveMin State.reset = some 0x0400000000000000#64 ∧
    respStatus 0x0400000000000000#64 ≠ 0 ∧ State.reset.errlog = 0 ∧ answer .bsMore sV22 = some 0x0800000000000000#64 ∧
    respStatus 0x0800000000000000#64 ≠ 0 ∧ sV22.errlog ≠ 0 := by decide
theorem test_witness_EveryCommandGivesOneResponse : (nextOf (exec .pqRemoveMin sOpl)).isSome = true ∧
    (nextOf (exec .pqSize sOpl)).isSome = true ∧ Instr.pqSize ≠ .pqRemoveMin := by decide
theorem test_witness_ErrlogKeepsTheFirstCode : answer .pqSize sV22 = some 0#64 ∧ respStatus 0#64 = 0 ∧ sV22.errlog ≠ 0 ∧
    (nextOf (exec .bsMore sV22)).isSome = true := by decide
theorem test_witness_ErrlogInfluencesNoCommand : (∀ r, Instr.bsRead 9 ≠ .rdReg r) ∧ (nextOf (exec (.bsRead 9) sRead)).isSome = true :=
  ⟨fun r => by simp, by decide⟩
theorem test_witness_RegistersAreWrittenOnlyByTheirCommands :
    (nextOf (exec (.bsOpen 1) sIdle)).map (fun t => decide (t.bsMode ≠ sIdle.bsMode ∧ t.bsLen ≠ sIdle.bsLen ∧ t.bsRemain ≠ sIdle.bsRemain)) =
      some true ∧
    (nextOf (exec (.bsWrite 2 3) sWrite)).map (fun t => decide (t.bsTotal ≠ sWrite.bsTotal ∧ t.bsAcc ≠ sWrite.bsAcc ∧
      t.storage.fileSize ≠ sWrite.storage.fileSize)) = some true ∧
    (nextOf (exec .pqRemoveMin sOpl)).map (fun t => decide (t.pqCount ≠ sOpl.pqCount)) = some true ∧
    (nextOf (exec .pqRemoveMin sIdle)).map (fun t => decide (t.errlog ≠ sIdle.errlog)) = some true := by decide
theorem test_witness_ResetMoveClearsTheBlockAndKeepsTheStorage : { sV22 with moves := [.reset] }.moves = .reset :: [] := rfl
theorem test_witness_HostLoadThenReadGivesTheImage :
    { sIdle with moves := [.loadStorage [1, 0], .readStorage] }.moves = .loadStorage [1, 0] :: .readStorage :: [] ∧ sIdle.bsMode = .idle ∧
    [(1 : Byte), 0].length ≤ Config.storeMax := ⟨rfl, rfl, by decide⟩
theorem image_longer (n : Nat) : ∃ image : List Byte, n < image.length := ⟨List.replicate (n + 1) 0, by simp⟩

theorem test_witness_ForbiddenStorageMovesStop : sWrite.bsMode ≠ .idle ∧ { sWrite with moves := [.loadStorage []] }.moves = .loadStorage [] :: [] ∧
    { sRead with moves := [.readStorage] }.moves = .readStorage :: [] ∧ sIdle.bsMode = .idle ∧
    ∃ image : List Byte, Config.storeMax < image.length :=
  ⟨by decide, rfl, rfl, rfl, image_longer _⟩
theorem test_witness_EachStepTakesOneHostMove : (nextOf (step { sIdle with moves := [.readStorage] })).isSome = true ∧ sIdle.moves = [] := by
  decide
theorem test_witness_EveryStepKeepsTheInvariant : sV22.Inv ∧
    (nextOf (step (sV22.withFetchWord 64 0x2120000080000001))).isSome = true := ⟨sV22_inv, by decide⟩
theorem test_witness_TheBlockIsNeverStuck : sIdle.Inv ∧ hostObeys { sIdle with moves := [.loadStorage fileS1] } ∧
    hostObeys { sIdle with moves := [.readStorage] } ∧ hostObeys { sV22 with moves := [.reset] } ∧
    hostObeys { sV22 with moves := [.issue 0#64] } ∧ hostObeys sIdle := ⟨sIdle_inv, ⟨rfl, by decide⟩, rfl, trivial, trivial, trivial⟩
theorem test_witness_WriteSessionLeavesTheBitFile : sIdle.Inv ∧ sIdle.bsMode = .idle ∧
    (∀ p ∈ [((3 : BitVec 8), (5 : BitVec 32)), (32, 0x80000001#32)], p.1.toNat ≤ 32) ∧
    ([((3 : BitVec 8), (5 : BitVec 32)), (32, 0x80000001#32)].map fun p => p.1.toNat).sum ≤ 4294967295 :=
  ⟨sIdle_inv, rfl, by simp, by simp⟩

/-- The fourteen bits of S1. -/
def bitsS1 : List Bool := bitsOf 0x03FA 14

theorem test_witness_ReadSessionReturnsTheSlices : sIdle.bsMode = .idle ∧ bitsS1.length ≤ 4294967295 ∧ sIdle.storage.bytes = bitFile bitsS1 ∧
    (∀ n ∈ [(5 : BitVec 8), 9], n.toNat ≤ 32) ∧ ([(5 : BitVec 8), 9].map fun n => n.toNat).sum ≤ bitsS1.length := by decide +kernel
theorem test_witness_OplAndBscCommandsCommute : answer (.pqInsert 1 1) sWrite = some 0#64 ∧
    ((nextOf (exec (.pqInsert 1 1) sWrite)).bind fun t => answer (.bsWrite 2 3) t) = some 0#64 ∧ respStatus 0#64 = 0 := by decide
theorem test_witness_ErrlogZeroExactlyWhenEveryCommandCompleted : sIdle.errlog = 0 ∧
    (∀ m ∈ [HostMove.issue 0x2001000000000000#64, .issue 0x2121000000000000#64, .issue 0x2400000000000000#64, .readStorage], m ≠ .reset) ∧
    (runMoves [.issue 0x2001000000000000#64, .issue 0x2121000000000000#64, .issue 0x2400000000000000#64, .readStorage] sIdle).map Prod.snd =
      some [.response 0#64, .response 0x0900000000000000#64, .response 0#64, .storageImage fileS1] ∧
    (runMoves [.issue 0x1200000000000000#64] sIdle).map Prod.snd = some [.response 0#64] := by decide
theorem test_witness_WriteCodeAppendsTheWholeCode : sWrite.Inv ∧ sWrite.bsMode = .write ∧
    sWrite.bsTotal.toNat + (bitsOf 0xFEDCBA9876 40).length ≤ 4294967295 := ⟨sWrite_inv, rfl, by decide⟩
theorem test_witness_BuilderMakesOneTreeOfTheInput : State.reset.Inv ∧ State.reset.opl = [] ∧ inputS1 ≠ [] ∧ inputS1.length ≤ Config.maxInput :=
  ⟨⟨by decide, by decide, by decide, by decide, by decide, by decide, by decide, rfl⟩, rfl, by decide, by decide⟩
theorem test_witness_EncodeLeavesTheBitFileOfTheCodes : sIdle.Inv ∧ resultOf (encodeInput inputS1 sIdle) = some (some treeS1) :=
  ⟨sIdle_inv, by decide +kernel⟩
theorem test_witness_DecodeReturnsTheEncodedInput : sIdle.Inv ∧ resultOf (encodeInput inputS1 sIdle) = some (some treeS1) ∧
    resultOf (encodeInput [] sIdle) = some none := ⟨sIdle_inv, by decide +kernel, by decide +kernel⟩
theorem test_witness_EveryInputUpTo16843009BytesRoundTrips : sIdle.Inv ∧ sIdle.bsMode = .idle ∧ sIdle.opl = [] ∧ inputS1.length ≤ 16843009 ∧
    ([] : List Byte).length ≤ 16843009 := ⟨sIdle_inv, rfl, rfl, by decide, by decide⟩
theorem test_witness_LeftoverEntriesAreMergedIntoTheTree : sLeft.Inv ∧ [(0x61 : Byte), 0x61, 0x62] ≠ [] ∧
    sLeft.opl.length + (frequencies [0x61, 0x61, 0x62]).length ≤ Config.pqCapacity ∧
    (sLeft.opl.map fun e => e.weight.toNat).sum + [(0x61 : Byte), 0x61, 0x62].length ≤ Config.maxInput ∧
    ∀ e ∈ [(⟨511, 1⟩ : Entry), ⟨255, 2⟩] ++ sLeft.opl,
      511 ≤ e.payload.toNat ∨ e.payload.toNat < 256 ∧ [(0x61 : Byte), 0x61, 0x62].count (BitVec.ofNat 8 e.payload.toNat) = 0 :=
  ⟨⟨by decide, by decide, by decide, by decide, by decide, by decide, by decide, rfl⟩, by decide, by decide +kernel, by decide, by decide⟩
theorem test_witness_TermsNoWordCarriesRaiseIllegalCommand : Instr.wf (.bsWrite 33 0) = false ∧ Instr.wf (.bsRead 33) = false ∧
    Instr.wf (.rdReg 9) = false := by decide
theorem test_witness_TruncatedPayloadIsDetected : (resetWith [0, 0, 0, 0x0E, 0x0F]).bsMode = .idle ∧ bitsS1.length ≤ 4294967295 ∧
    4 ≤ 5 ∧ 5 < (bitFile bitsS1).length ∧ (resetWith [0, 0, 0, 0x0E, 0x0F]).storage.bytes = (bitFile bitsS1).take 5 := by decide +kernel
theorem test_witness_DecodeEndingInsideACodeKeepsTheSymbolsEmitted :
    let s := resetWith [0, 0, 0, 0x0D, 0x0F, 0xE8]
    let bits := codedBits (codeTable treeS1) (inputS1.take 8) ++ [true]
    s.bsMode = .idle ∧ (∀ c ∈ inputS1.take 8, (codeOf (codeTable treeS1) c).isSome = true) ∧ ((0x62 : Byte), [true, true]) ∈ codeTable treeS1 ∧
    [true] <+: [true, true] ∧ [true] ≠ [] ∧ [true] ≠ [true, true] ∧ bits.length ≤ 4294967295 ∧ s.storage.bytes = bitFile bits := by decide +kernel

end Sys2Proof.Tests
end

section
/-! Progress of the block (R10, R245): from the invariant every command answers a next state, and so does every step under a host move that R247
allows. -/

namespace Sys2Proof.Machine

/-- The invariant does not speak of the moves still to come. -/
theorem State.Inv.withMoves {s : State} (h : s.Inv) (ms : List HostMove) : State.Inv { s with moves := ms } :=
  ⟨h.count, h.capacity, h.sorted, h.acc, h.remain, h.errlog, h.storage, h.mode⟩

/-! ## Commands that answer in every state -/

theorem respond_answers (p : BitVec 16) (d : BitVec 32) (s : State) : ∃ t, respond p d s = .next t := ⟨_, respond_eq p d s⟩

theorem raise_answers (k : FaultKind) (s : State) : ∃ t, raise k s = .next t := ⟨_, raise_eq k s⟩

theorem execPqInsert_answers (payload : BitVec 16) (weight : BitVec 32) (s : State) :
    ∃ t, execPqInsert payload weight s = .next t := by
  unfold execPqInsert
  split
  · exact raise_answers _ _
  · exact respond_answers _ _ _

/-- The header is read only where the Storage holds one. -/
theorem openRead_answers (s : State) : ∃ t, openRead s = .next t := by
  unfold openRead
  split
  · exact raise_answers _ _
  · next hsize =>
    rw [Storage.readHeader_of_le (Nat.le_of_not_lt hsize)]
    dsimp only
    split
    · exact raise_answers _ _
    · exact respond_answers _ _ _

theorem execBsOpen_answers (mode : BitVec 8) (s : State) : ∃ t, execBsOpen mode s = .next t := by
  unfold execBsOpen
  split
  · exact raise_answers _ _
  · split
    · exact raise_answers _ _
    · split
      · obtain ⟨st, h, -⟩ := openWrite_spec s
        exact ⟨_, h⟩
      · exact openRead_answers s

theorem execBsMore_answers (s : State) : ∃ t, execBsMore s = .next t := by
  unfold execBsMore
  split
  · exact raise_answers _ _
  · split
    · exact respond_answers _ _ _
    · exact respond_answers _ _ _

theorem execRdReg_answers (num : BitVec 8) (s : State) : ∃ t, execRdReg num s = .next t := by
  unfold execRdReg
  split
  · exact raise_answers _ _
  · exact respond_answers _ _ _

/-! ## Commands that rely on the invariant -/

/-- An empty entry list has `PQ_COUNT` 0 (R29), so the removal never misses an entry. -/
theorem execPqRemoveMin_answers {s : State} (hs : s.Inv) : ∃ t, execPqRemoveMin s = .next t := by
  unfold execPqRemoveMin
  split
  · exact raise_answers _ _
  · next hcount =>
    split
    · next hopl =>
      have hzero : s.pqCount.toNat = 0 := by rw [hs.count, hopl, List.length_nil]
      exact absurd (BitVec.eq_of_toNat_eq hzero) hcount
    · exact respond_answers _ _ _

/-- Past the tests the new total is one the header can declare, so every flushed byte has its place (R39, R124). -/
theorem execBsWrite_answers (n : BitVec 8) (value : BitVec 32) {s : State} (hs : s.Inv) : ∃ t, execBsWrite n value s = .next t := by
  unfold execBsWrite
  split
  · exact raise_answers _ _
  next hlegal =>
  split
  · exact raise_answers _ _
  next hmode =>
  split
  · exact raise_answers _ _
  next htotal =>
  split
  · exact raise_answers _ _
  · have hn : n.toNat ≤ 32 := by simpa [bitCountLegal] using hlegal
    obtain ⟨t, h, -⟩ := appendBits_spec n.toNat value s hs (not_not.mp hmode) hn (Nat.le_of_not_lt htotal)
    exact ⟨t, h⟩

/-- `BS_REMAIN` is at most `BS_LEN` (R22, R40), and past the tests every bit to read lies in the Storage (R125). -/
theorem execBsRead_answers (n : BitVec 8) {s : State} (hs : s.Inv) : ∃ t, execBsRead n s = .next t := by
  unfold execBsRead
  split
  · exact raise_answers _ _
  split
  · exact raise_answers _ _
  split
  · exact raise_answers _ _
  rw [if_neg (Nat.not_lt.mpr hs.remain)]
  split
  · exact raise_answers _ _
  · next hsize => exact ⟨_, takeBits_spec n.toNat s (Nat.le_of_not_lt hsize)⟩

theorem execBsClose_answers {s : State} (hs : s.Inv) : ∃ t, execBsClose s = .next t := by
  unfold execBsClose
  split
  · exact raise_answers _ _
  · next hmode =>
    obtain ⟨st, h, -⟩ := closeWrite_spec s hs hmode
    exact ⟨_, h⟩
  · exact respond_answers _ _ _

/-! ## Progress -/

/-- From the invariant every command answers, its term well formed or not. -/
theorem exec_answers (i : Instr) {s : State} (hs : s.Inv) : ∃ t, exec i s = .next t := by
  cases i with
  | pqInsert payload weight => exact execPqInsert_answers payload weight s
  | pqRemoveMin => exact execPqRemoveMin_answers hs
  | pqSize => exact respond_answers _ _ _
  | bsOpen mode => exact execBsOpen_answers mode s
  | bsWrite n value => exact execBsWrite_answers n value hs
  | bsRead n => exact execBsRead_answers n hs
  | bsMore => exact execBsMore_answers s
  | bsClose => exact execBsClose_answers hs
  | rdReg num => exact execRdReg_answers num s

/-- From the invariant every one of the `2^64` words answers (R84, R209). -/
theorem runWord_answers (w : CmdWord) {s : State} (hs : s.Inv) : ∃ t, runWord w s = .next t := by
  unfold runWord
  split
  · exact exec_answers _ hs
  · exact raise_answers _ _

theorem hostLoadStorage_of_idle {image : List Byte} {s : State} (hidle : s.bsMode = .idle) (hlen : image.length ≤ Config.storeMax) :
    hostLoadStorage image s = .next { s with storage := Storage.ofBytes image, reply := .nothing } := by
  rw [hostLoadStorage, if_neg (not_not.mpr hidle), if_neg (Nat.not_lt.mpr hlen)]

theorem hostReadStorage_of_idle {s : State} (hidle : s.bsMode = .idle) :
    hostReadStorage s = .next { s with reply := .storageImage s.storage.bytes } := by
  rw [hostReadStorage, if_neg (not_not.mpr hidle)]

/-- Settles O44, by cases on the host's next move: a word answers by `runWord_answers`, and R247 gives a Storage move what it asks for. -/
theorem theBlockIsNeverStuck : Obligations.TheBlockIsNeverStuck := by
  unfold Obligations.TheBlockIsNeverStuck
  intro s hs hobeys
  unfold hostObeys at hobeys
  unfold step
  cases hmoves : s.moves with
  | nil => exact ⟨s, rfl⟩
  | cons m rest =>
    rw [hmoves] at hobeys
    cases m with
    | issue w => exact runWord_answers w (hs.withMoves rest)
    | reset => exact ⟨_, rfl⟩
    | loadStorage image => exact ⟨_, hostLoadStorage_of_idle hobeys.1 hobeys.2⟩
    | readStorage => exact ⟨_, hostReadStorage_of_idle hobeys⟩

end Sys2Proof.Machine
end

section
/-! What each command that answers leaves behind (spec/40, 41, 42), said once, and which registers that can have changed (R22, R36). -/

namespace Sys2Proof.Machine

/-- The ways a command that answers next can end, each with the tests it passed: a fault, or one completed arm of the command's own rule. -/
inductive Effect (s : State) : Instr → State → Prop
  | raised {i : Instr} (k : FaultKind) (h5 : k ≠ .internalInvariantError) (h6 : k ≠ .symbolNotInTableError) :
      Effect s i (s.withFault k)
  /-- PQ.SIZE, BS.MORE and RDREG write no state (R103, R126, R150). -/
  | answered {i : Instr} (d : BitVec 32) (hi : i = .pqSize ∨ i = .bsMore ∨ ∃ r, i = .rdReg r) : Effect s i (s.withResponse 0 d)
  | inserted (p : BitVec 16) (w : BitVec 32) (hroom : s.pqCount.toNat ≠ Config.pqCapacity) :
      Effect s (.pqInsert p w)
        (State.withResponse { s with opl := oplInsert (entryOf p w) s.opl, pqCount := s.pqCount + 1 } 0 0)
  | removed (e : Entry) (rest : List Entry) (hcount : s.pqCount ≠ 0) (hopl : s.opl = e :: rest) :
      Effect s .pqRemoveMin (State.withResponse { s with opl := rest, pqCount := s.pqCount - 1 } e.payload e.weight)
  | openedWrite (st : Storage) (hidle : s.bsMode = .idle) (hwf : Storage.wf st) (hsize : st.fileSize = 4)
      (hzero : ∀ a, st.byte a = 0) :
      Effect s (.bsOpen 0)
        (State.withResponse { s with storage := st, bsTotal := 0, bsAcc := 0, bsNacc := 0, bsMode := .write } 0 0)
  | openedRead (hidle : s.bsMode = .idle) (hok : s.storage.acceptable) :
      Effect s (.bsOpen 1) (State.withResponse { s with
        bsLen := BitVec.ofNat 32 s.storage.declaredLen, bsRemain := BitVec.ofNat 32 s.storage.declaredLen, bsMode := .read } 0 0)
  | appended (n : BitVec 8) (v : BitVec 32) (st : Storage) (acc : BitVec 7) (nacc : BitVec 3) (total : BitVec 32)
      (hlegal : n.toNat ≤ 32) (hmode : s.bsMode = .write) (htotal : s.bsTotal.toNat + n.toNat ≤ Config.maxTotal)
      (hsize : s.storage.fileSize ≤ st.fileSize)
      (happend : appendBits n.toNat v s = .next (State.withResponse
        { s with storage := st, bsAcc := acc, bsNacc := nacc, bsTotal := total } 0 0)) :
      Effect s (.bsWrite n v) (State.withResponse { s with storage := st, bsAcc := acc, bsNacc := nacc, bsTotal := total } 0 0)
  | took (n : BitVec 8) (hmode : s.bsMode = .read) (hn : n.toNat ≤ s.bsRemain.toNat) :
      Effect s (.bsRead n) (State.withResponse { s with bsRemain := BitVec.ofNat 32 (s.bsRemain.toNat - n.toNat) } 0
        (BitVec.ofNat 32 (bitsValue (s.storage.payloadBits (s.bsLen.toNat - s.bsRemain.toNat) n.toNat))))
  | closedWrite (st : Storage) (hmode : s.bsMode = .write) (hsize : s.storage.fileSize ≤ st.fileSize)
      (hclose : closeWrite s = .next (State.withResponse { s with storage := st, bsAcc := 0, bsNacc := 0, bsMode := .idle } 0 0)) :
      Effect s .bsClose (State.withResponse { s with storage := st, bsAcc := 0, bsNacc := 0, bsMode := .idle } 0 0)
  | closedRead (hmode : s.bsMode = .read) : Effect s .bsClose (State.withResponse { s with bsMode := .idle } 0 0)

/-! ## One command at a time -/

theorem execPqInsert_effect {p : BitVec 16} {w : BitVec 32} {s t : State} (h : execPqInsert p w s = .next t) :
    Effect s (.pqInsert p w) t := by
  unfold execPqInsert at h
  split at h
  · cases h; exact .raised _ nofun nofun
  · next hroom => cases h; exact .inserted p w hroom

theorem execPqRemoveMin_effect {s t : State} (h : execPqRemoveMin s = .next t) : Effect s .pqRemoveMin t := by
  unfold execPqRemoveMin at h
  split at h
  · cases h; exact .raised _ nofun nofun
  · next hcount =>
    split at h
    · cases h
    · next e rest hopl => cases h; exact .removed e rest hcount hopl

/-- The two valid modes are the words' numbers 0 and 1 (R82). -/
theorem openMode_eq_some {mode : BitVec 8} {m : OpenMode} (h : openMode mode = some m) :
    mode = 0 ∧ m = .write ∨ mode = 1 ∧ m = .read := by
  unfold openMode at h
  split at h
  · next hmode => cases h; exact .inl ⟨BitVec.eq_of_toNat_eq hmode, rfl⟩
  · next hmode => cases h; exact .inr ⟨BitVec.eq_of_toNat_eq hmode, rfl⟩
  · cases h

theorem openRead_effect {s t : State} (hidle : s.bsMode = .idle) (h : openRead s = .next t) : Effect s (.bsOpen 1) t := by
  unfold openRead at h
  split at h
  · cases h; exact .raised _ nofun nofun
  · next hsize =>
    have hheader : Config.hdr ≤ s.storage.fileSize := Nat.le_of_not_lt hsize
    rw [Storage.readHeader_of_le hheader] at h
    dsimp only at h
    split at h
    · cases h; exact .raised _ nofun nofun
    · next hlen => cases h; exact .openedRead hidle ⟨hheader, Nat.le_of_not_lt hlen⟩

theorem execBsOpen_effect {mode : BitVec 8} {s t : State} (h : execBsOpen mode s = .next t) : Effect s (.bsOpen mode) t := by
  unfold execBsOpen at h
  split at h
  · cases h; exact .raised _ nofun nofun
  · next m hm =>
    split at h
    · cases h; exact .raised _ nofun nofun
    · next hidle =>
      obtain ⟨rfl, rfl⟩ | ⟨rfl, rfl⟩ := openMode_eq_some hm
      · obtain ⟨st, hst, hwf, hsize, hzero⟩ := openWrite_spec s
        cases hst.symm.trans h
        exact .openedWrite st (not_not.mp hidle) hwf hsize hzero
      · exact openRead_effect (not_not.mp hidle) h

theorem execBsWrite_effect {n : BitVec 8} {v : BitVec 32} {s t : State} (h : execBsWrite n v s = .next t) :
    Effect s (.bsWrite n v) t := by
  unfold execBsWrite at h
  split at h
  · cases h; exact .raised _ nofun nofun
  next hlegal =>
  split at h
  · cases h; exact .raised _ nofun nofun
  next hmode =>
  split at h
  · cases h; exact .raised _ nofun nofun
  next htotal =>
  split at h
  · cases h; exact .raised _ nofun nofun
  have happend := h
  unfold appendBits at h
  split at h
  · cases h
  · next st buf hflush =>
    cases h
    exact .appended n v st _ _ _ (by simpa [bitCountLegal] using hlegal) (not_not.mp hmode) (Nat.le_of_not_lt htotal)
      (flushBytes_fileSize hflush) happend

theorem execBsRead_effect {n : BitVec 8} {s t : State} (h : execBsRead n s = .next t) : Effect s (.bsRead n) t := by
  unfold execBsRead at h
  split at h
  · cases h; exact .raised _ nofun nofun
  split at h
  · cases h; exact .raised _ nofun nofun
  next hmode =>
  split at h
  · cases h; exact .raised _ nofun nofun
  next hremain =>
  split at h
  · cases h
  split at h
  · cases h; exact .raised _ nofun nofun
  next hsize =>
  rw [takeBits_spec n.toNat s (Nat.le_of_not_lt hsize)] at h
  cases h
  exact .took n (not_not.mp hmode) (Nat.le_of_not_lt hremain)

theorem execBsMore_effect {s t : State} (h : execBsMore s = .next t) : Effect s .bsMore t := by
  unfold execBsMore at h
  split at h
  · cases h; exact .raised _ nofun nofun
  · split at h
    · cases h; exact .answered _ (.inr (.inl rfl))
    · cases h; exact .answered _ (.inr (.inl rfl))

theorem closeWrite_effect {s t : State} (hmode : s.bsMode = .write) (h : closeWrite s = .next t) : Effect s .bsClose t := by
  have hclose := h
  unfold closeWrite at h
  split at h
  · cases h
  · next st hpad =>
    split at h
    · cases h
    · next st' hheader =>
      cases h
      exact .closedWrite st' hmode ((Storage.memWriteRun_fileSize hpad).trans (Storage.memWriteRun_fileSize hheader)) hclose

theorem execBsClose_effect {s t : State} (h : execBsClose s = .next t) : Effect s .bsClose t := by
  unfold execBsClose at h
  split at h
  · cases h; exact .raised _ nofun nofun
  · next hmode => exact closeWrite_effect hmode h
  · next hmode => cases h; exact .closedRead hmode

theorem execRdReg_effect {num : BitVec 8} {s t : State} (h : execRdReg num s = .next t) : Effect s (.rdReg num) t := by
  unfold execRdReg at h
  split at h
  · cases h; exact .raised _ nofun nofun
  · cases h; exact .answered _ (.inr (.inr ⟨num, rfl⟩))

/-- Every command that answers next has one of the effects. -/
theorem exec_effect {i : Instr} {s t : State} (h : exec i s = .next t) : Effect s i t := by
  cases i with
  | pqInsert p w => exact execPqInsert_effect h
  | pqRemoveMin => exact execPqRemoveMin_effect h
  | pqSize => cases h; exact .answered _ (.inl rfl)
  | bsOpen mode => exact execBsOpen_effect h
  | bsWrite n v => exact execBsWrite_effect h
  | bsRead n => exact execBsRead_effect h
  | bsMore => exact execBsMore_effect h
  | bsClose => exact execBsClose_effect h
  | rdReg num => exact execRdReg_effect h

/-! ## The writers of each register -/

section Writers

variable {i : Instr} {s t : State}

theorem Effect.bsMode_writers (h : Effect s i t) (hne : t.bsMode ≠ s.bsMode) : i = .bsOpen 0 ∨ i = .bsOpen 1 ∨ i = .bsClose := by
  cases h with
  | openedWrite => exact .inl rfl
  | openedRead => exact .inr (.inl rfl)
  | closedWrite => exact .inr (.inr rfl)
  | closedRead => exact .inr (.inr rfl)
  | _ => exact absurd rfl hne

theorem Effect.bsTotal_writers (h : Effect s i t) (hne : t.bsTotal ≠ s.bsTotal) : i = .bsOpen 0 ∨ ∃ n v, i = .bsWrite n v := by
  cases h with
  | openedWrite => exact .inl rfl
  | appended => exact .inr ⟨_, _, rfl⟩
  | _ => exact absurd rfl hne

theorem Effect.bsLen_writers (h : Effect s i t) (hne : t.bsLen ≠ s.bsLen) : i = .bsOpen 1 := by
  cases h with
  | openedRead => rfl
  | _ => exact absurd rfl hne

theorem Effect.bsRemain_writers (h : Effect s i t) (hne : t.bsRemain ≠ s.bsRemain) : i = .bsOpen 1 ∨ ∃ n, i = .bsRead n := by
  cases h with
  | openedRead => exact .inl rfl
  | took => exact .inr ⟨_, rfl⟩
  | _ => exact absurd rfl hne

theorem Effect.pending_writers (h : Effect s i t) (hne : t.bsAcc ≠ s.bsAcc ∨ t.bsNacc ≠ s.bsNacc) :
    i = .bsOpen 0 ∨ (∃ n v, i = .bsWrite n v) ∨ i = .bsClose := by
  cases h with
  | openedWrite => exact .inl rfl
  | appended => exact .inr (.inl ⟨_, _, rfl⟩)
  | closedWrite => exact .inr (.inr rfl)
  | closedRead => exact .inr (.inr rfl)
  | _ => exact hne.elim (absurd rfl) (absurd rfl)

theorem Effect.opl_writers (h : Effect s i t) (hne : t.pqCount ≠ s.pqCount ∨ t.opl ≠ s.opl) :
    (∃ p w, i = .pqInsert p w) ∨ i = .pqRemoveMin := by
  cases h with
  | inserted => exact .inl ⟨_, _, rfl⟩
  | removed => exact .inr rfl
  | _ => exact hne.elim (absurd rfl) (absurd rfl)

theorem Effect.fileSize_writers (h : Effect s i t) (hne : t.storage.fileSize ≠ s.storage.fileSize) :
    i = .bsOpen 0 ∧ t.storage.fileSize = 4 ∨
      ((∃ n v, i = .bsWrite n v) ∨ i = .bsClose) ∧ s.storage.fileSize < t.storage.fileSize := by
  cases h with
  | openedWrite st hidle hwf hsize hzero => exact .inl ⟨rfl, hsize⟩
  | appended n v st acc nacc total hlegal hmode htotal hsize happend =>
    exact .inr ⟨.inl ⟨_, _, rfl⟩, lt_of_le_of_ne hsize hne.symm⟩
  | closedWrite st hmode hsize hclose => exact .inr ⟨.inr rfl, lt_of_le_of_ne hsize hne.symm⟩
  | _ => exact absurd rfl hne

end Writers

end Sys2Proof.Machine
end

section
/-! `ERRLOG` (R30, R211): it keeps the first fault's code, says whether every command of a run completed, and is read by RDREG alone. -/

namespace Sys2Proof.Machine

/-! ## What a command does to it -/

theorem errlogAfter_of_ne_zero (k : FaultKind) {e : BitVec 4} (he : e ≠ 0) : errlogAfter k e = e := if_neg he

/-- Every code is nonzero (R200), so after a fault `ERRLOG` is too. -/
theorem errlogAfter_ne_zero (k : FaultKind) (e : BitVec 4) : errlogAfter k e ≠ 0 := by
  unfold errlogAfter
  split
  · cases k <;> decide
  · assumption

/-- The reply is no response of a fault: it has `STATUS = 0`, or is no response word. -/
def HostReply.faultless (r : HostReply) : Prop := ∀ w, r = .response w → respStatus w = 0

theorem HostReply.faultless_iff {r : HostReply} {w : RespWord} (hr : r = .response w) : r.faultless ↔ respStatus w = 0 := by
  subst hr
  exact ⟨fun h => h w rfl, fun h _ hw => by cases hw; exact h⟩

theorem withFault_not_faultless (s : State) (k : FaultKind) : ¬ (s.withFault k).reply.faultless := by
  rw [HostReply.faultless_iff (withFault_reply s k), respStatus_respWord]
  exact code_ne_zero k

theorem withResponse_faultless (s : State) (p : BitVec 16) (d : BitVec 32) : (s.withResponse p d).reply.faultless := by
  rw [HostReply.faultless_iff (withResponse_reply s p d), respStatus_respWord]

/-- Settles O34, by the two ways a command ends: a fault has a nonzero `STATUS` and keeps a nonzero code, a completed command leaves
`ERRLOG`. -/
theorem errlogKeepsTheFirstCode : Obligations.ErrlogKeepsTheFirstCode := by
  unfold Obligations.ErrlogKeepsTheFirstCode
  intro i s t h
  cases exec_ends h with
  | raised k h5 h6 =>
    exact ⟨fun w hw h0 => absurd ((HostReply.faultless_iff hw).mpr h0) (withFault_not_faultless s k), errlogAfter_of_ne_zero k⟩
  | completed u p d he hm hp => exact ⟨fun _ _ _ => he, fun _ => he⟩

/-! ## Its writers, and with them those of every register -/

/-- `ERRLOG` changes only from 0, under a command that faulted (R211). -/
theorem exec_errlog_writers {i : Instr} {s t : State} (h : exec i s = .next t) (hne : t.errlog ≠ s.errlog) :
    s.errlog = 0 ∧ ∃ w, t.reply = .response w ∧ respStatus w ≠ 0 := by
  cases exec_ends h with
  | raised k h5 h6 =>
    refine ⟨not_not.mp fun h0 => hne (errlogAfter_of_ne_zero k h0), _, withFault_reply s k, ?_⟩
    rw [respStatus_respWord]
    exact code_ne_zero k
  | completed u p d he hm hp => exact absurd he hne

/-- Settles O36: the writers of each register are read off the command's effect. -/
theorem registersAreWrittenOnlyByTheirCommands : Obligations.RegistersAreWrittenOnlyByTheirCommands := by
  unfold Obligations.RegistersAreWrittenOnlyByTheirCommands
  intro i s t h
  have heff := exec_effect h
  exact ⟨heff.bsMode_writers, heff.bsTotal_writers, heff.bsLen_writers, heff.bsRemain_writers, heff.pending_writers, heff.opl_writers,
    exec_errlog_writers h, heff.fileSize_writers⟩

/-! ## Along a run -/

theorem withFault_errlog_eq_zero_iff (s : State) (k : FaultKind) :
    (s.withFault k).errlog = 0 ↔ s.errlog = 0 ∧ (s.withFault k).reply.faultless :=
  iff_of_false (errlogAfter_ne_zero k s.errlog) fun h => withFault_not_faultless s k h.2

theorem runWord_errlog_eq_zero_iff {w : CmdWord} {s t : State} (h : runWord w s = .next t) :
    t.errlog = 0 ↔ s.errlog = 0 ∧ t.reply.faultless := by
  unfold runWord at h
  split at h
  · cases exec_ends h with
    | raised k h5 h6 => exact withFault_errlog_eq_zero_iff s k
    | completed u p d he hm hp => rw [withResponse_errlog, he, and_iff_left (withResponse_faultless u p d)]
  · cases h; exact withFault_errlog_eq_zero_iff s _

/-- After any move but reset, `ERRLOG` is 0 exactly when it was and the move gave no fault's response. -/
theorem step_errlog_eq_zero_iff {m : HostMove} {ms : List HostMove} {s t : State} (hm : m ≠ .reset)
    (h : step { s with moves := m :: ms } = .next t) : t.errlog = 0 ↔ s.errlog = 0 ∧ t.reply.faultless := by
  cases m with
  | issue w => exact runWord_errlog_eq_zero_iff (s := { s with moves := ms }) h
  | reset => exact absurd rfl hm
  | loadStorage image =>
    simp only [step, hostLoadStorage] at h
    split at h
    · cases h
    · split at h
      · cases h
      · cases h; exact (and_iff_left nofun).symm
  | readStorage =>
    simp only [step, hostReadStorage] at h
    split at h
    · cases h
    · cases h; exact (and_iff_left nofun).symm

/-- A run of one more move in front is that move's step and the run from where it ends. -/
theorem runMoves_cons {m : HostMove} {ms : List HostMove} {s u : State} {rs : List HostReply}
    (h : runMoves (m :: ms) s = some (u, rs)) :
    ∃ t rs', step { s with moves := m :: ms } = .next t ∧ runMoves ms t = some (u, rs') ∧ rs = t.reply :: rs' := by
  simp only [runMoves] at h
  split at h
  · next t hstep =>
    split at h
    · next v rs' hrun => cases h; exact ⟨t, rs', hstep, hrun, rfl⟩
    · cases h
  · cases h
  · cases h

theorem runMoves_errlog_eq_zero_iff {ms : List HostMove} {s u : State} {rs : List HostReply} (hreset : ∀ m ∈ ms, m ≠ .reset)
    (h : runMoves ms s = some (u, rs)) : u.errlog = 0 ↔ s.errlog = 0 ∧ ∀ r ∈ rs, r.faultless := by
  induction ms generalizing s rs with
  | nil => cases h; exact (and_iff_left nofun).symm
  | cons m ms ih =>
    obtain ⟨hm, hms⟩ := List.forall_mem_cons.mp hreset
    obtain ⟨t, rs', hstep, hrun, rfl⟩ := runMoves_cons h
    rw [ih hms hrun, step_errlog_eq_zero_iff hm hstep, List.forall_mem_cons, and_assoc]

/-- Settles O48, by induction on the moves: after each one `ERRLOG` is still 0 exactly when no fault answered so far. -/
theorem errlogZeroExactlyWhenEveryCommandCompleted : Obligations.ErrlogZeroExactlyWhenEveryCommandCompleted := by
  unfold Obligations.ErrlogZeroExactlyWhenEveryCommandCompleted
  intro ms s t rs h0 hreset h
  rw [runMoves_errlog_eq_zero_iff hreset h, and_iff_right h0]
  exact ⟨fun hall w hw => hall _ hw w rfl, fun hall r hr w hw => hall w (hw ▸ hr)⟩

/-! ## No other command reads it -/

/-- Where the first outcome is a next state, the second is that state with some `ERRLOG`. -/
def SameButErrlog (r r' : Result) : Prop := ∀ t, r = .next t → ∃ e, r' = .next { t with errlog := e }

section Blind

variable (s : State) (e : BitVec 4)

theorem respond_sameButErrlog (p : BitVec 16) (d : BitVec 32) : SameButErrlog (respond p d s) (respond p d { s with errlog := e }) := by
  intro t h
  cases h
  exact ⟨e, rfl⟩

theorem raise_sameButErrlog (k : FaultKind) : SameButErrlog (raise k s) (raise k { s with errlog := e }) := by
  intro t h
  cases h
  exact ⟨errlogAfter k e, rfl⟩

theorem fault_sameButErrlog (f : Fault) (r : Result) : SameButErrlog (.fault f) r := nofun

theorem execPqInsert_sameButErrlog (p : BitVec 16) (w : BitVec 32) :
    SameButErrlog (execPqInsert p w s) (execPqInsert p w { s with errlog := e }) := by
  unfold execPqInsert
  split
  · exact raise_sameButErrlog s e _
  · exact respond_sameButErrlog _ e _ _

theorem execPqRemoveMin_sameButErrlog : SameButErrlog (execPqRemoveMin s) (execPqRemoveMin { s with errlog := e }) := by
  unfold execPqRemoveMin
  split
  · exact raise_sameButErrlog s e _
  · dsimp only
    split
    · exact fault_sameButErrlog _ _
    · exact respond_sameButErrlog _ e _ _

theorem openWrite_sameButErrlog : SameButErrlog (openWrite s) (openWrite { s with errlog := e }) := by
  unfold openWrite
  split
  · exact fault_sameButErrlog _ _
  · exact respond_sameButErrlog _ e _ _

theorem openRead_sameButErrlog : SameButErrlog (openRead s) (openRead { s with errlog := e }) := by
  unfold openRead
  dsimp only
  split
  · exact raise_sameButErrlog s e _
  · split
    · exact fault_sameButErrlog _ _
    · split
      · exact raise_sameButErrlog s e _
      · exact respond_sameButErrlog _ e _ _

theorem execBsOpen_sameButErrlog (mode : BitVec 8) : SameButErrlog (execBsOpen mode s) (execBsOpen mode { s with errlog := e }) := by
  unfold execBsOpen
  split
  · exact raise_sameButErrlog s e _
  · split
    · exact raise_sameButErrlog s e _
    · split
      · exact openWrite_sameButErrlog s e
      · exact openRead_sameButErrlog s e

theorem appendBits_sameButErrlog (n : Nat) (v : BitVec 32) :
    SameButErrlog (appendBits n v s) (appendBits n v { s with errlog := e }) := by
  unfold appendBits
  dsimp only
  split
  · exact fault_sameButErrlog _ _
  · exact respond_sameButErrlog _ e _ _

theorem execBsWrite_sameButErrlog (n : BitVec 8) (v : BitVec 32) :
    SameButErrlog (execBsWrite n v s) (execBsWrite n v { s with errlog := e }) := by
  unfold execBsWrite
  split
  · exact raise_sameButErrlog s e _
  split
  · exact raise_sameButErrlog s e _
  split
  · exact raise_sameButErrlog s e _
  split
  · exact raise_sameButErrlog s e _
  · exact appendBits_sameButErrlog s e _ _

theorem takeBits_sameButErrlog (n : Nat) : SameButErrlog (takeBits n s) (takeBits n { s with errlog := e }) := by
  unfold takeBits
  dsimp only
  split
  · exact fault_sameButErrlog _ _
  · exact respond_sameButErrlog _ e _ _

theorem execBsRead_sameButErrlog (n : BitVec 8) : SameButErrlog (execBsRead n s) (execBsRead n { s with errlog := e }) := by
  unfold execBsRead
  split
  · exact raise_sameButErrlog s e _
  split
  · exact raise_sameButErrlog s e _
  split
  · exact raise_sameButErrlog s e _
  split
  · exact fault_sameButErrlog _ _
  split
  · exact raise_sameButErrlog s e _
  · exact takeBits_sameButErrlog s e _

theorem execBsMore_sameButErrlog : SameButErrlog (execBsMore s) (execBsMore { s with errlog := e }) := by
  unfold execBsMore
  split
  · exact raise_sameButErrlog s e _
  · split
    · exact respond_sameButErrlog s e _ _
    · exact respond_sameButErrlog s e _ _

theorem closeWrite_sameButErrlog : SameButErrlog (closeWrite s) (closeWrite { s with errlog := e }) := by
  have hpad : padBytes { s with errlog := e } = padBytes s := rfl
  unfold closeWrite
  rw [hpad]
  dsimp only
  split
  · exact fault_sameButErrlog _ _
  · split
    · exact fault_sameButErrlog _ _
    · exact respond_sameButErrlog _ e _ _

theorem execBsClose_sameButErrlog : SameButErrlog (execBsClose s) (execBsClose { s with errlog := e }) := by
  unfold execBsClose
  dsimp only
  split
  · exact raise_sameButErrlog s e _
  · exact closeWrite_sameButErrlog s e
  · exact respond_sameButErrlog _ e _ _

end Blind

/-- Settles O35, one command at a time: the tests and arms of each read every field but `ERRLOG`. -/
theorem errlogInfluencesNoCommand : Obligations.ErrlogInfluencesNoCommand := by
  unfold Obligations.ErrlogInfluencesNoCommand
  intro i s t e hi h
  cases i with
  | pqInsert p w => exact execPqInsert_sameButErrlog s e p w t h
  | pqRemoveMin => exact execPqRemoveMin_sameButErrlog s e t h
  | pqSize => exact respond_sameButErrlog s e _ _ t h
  | bsOpen mode => exact execBsOpen_sameButErrlog s e mode t h
  | bsWrite n v => exact execBsWrite_sameButErrlog s e n v t h
  | bsRead n => exact execBsRead_sameButErrlog s e n t h
  | bsMore => exact execBsMore_sameButErrlog s e t h
  | bsClose => exact execBsClose_sameButErrlog s e t h
  | rdReg num => exact absurd rfl (hi num)

end Sys2Proof.Machine
end

section
/-! The invariant of the block's state (R22, R27 to R29, R33, R36, R39 to R41): reset meets it and every step keeps it. -/

namespace Sys2Proof.Machine

/-! ## Commands -/

section Arms

variable {s : State}

/-- The buffer with no pending bit and value 0 meets R27. -/
theorem emptyBuffer_acc : (0 : BitVec 7).toNat < 2 ^ (0 : BitVec 3).toNat := by decide

/-- The step of `PQ_COUNT` as a number. -/
theorem toNat_one_count : (1 : BitVec 9).toNat = 1 := rfl

theorem State.Inv.inserted (hs : s.Inv) (p : BitVec 16) (w : BitVec 32) (hroom : s.pqCount.toNat ≠ Config.pqCapacity) :
    State.Inv { s with opl := oplInsert (entryOf p w) s.opl, pqCount := s.pqCount + 1 } := by
  obtain ⟨hcount, hcap, hsorted, hacc, hremain, herr, hst, hmode⟩ := hs
  have hlt : s.opl.length < Config.pqCapacity := lt_of_le_of_ne hcap (hcount ▸ hroom)
  simp only [Config.pqCapacity] at hlt
  refine ⟨?_, ?_, oplInsert_sorted _ _ hsorted, hacc, hremain, herr, hst, hmode⟩
  · simp only [oplInsert_length, BitVec.toNat_add, toNat_one_count]
    omega
  · simp only [oplInsert_length, Config.pqCapacity]
    omega

theorem State.Inv.removed (hs : s.Inv) {e : Entry} {rest : List Entry} (hopl : s.opl = e :: rest) :
    State.Inv { s with opl := rest, pqCount := s.pqCount - 1 } := by
  obtain ⟨hcount, hcap, hsorted, hacc, hremain, herr, hst, hmode⟩ := hs
  rw [hopl, List.length_cons] at hcount hcap
  rw [hopl] at hsorted
  refine ⟨?_, (Nat.le_succ _).trans hcap, hsorted.of_cons, hacc, hremain, herr, hst, hmode⟩
  simp only [BitVec.toNat_sub, toNat_one_count, hcount]
  simp only [Config.pqCapacity] at hcap
  omega

/-- A new write session: nothing pending, and the four header bytes are the zero placeholder (R39). -/
theorem State.Inv.openedWrite (hs : s.Inv) {st : Storage} (hwf : Storage.wf st) (hsize : st.fileSize = 4)
    (hzero : ∀ a, st.byte a = 0) :
    State.Inv { s with storage := st, bsTotal := 0, bsAcc := 0, bsNacc := 0, bsMode := .write } :=
  { hs with acc := emptyBuffer_acc, storage := hwf, mode := ⟨rfl, by simp [hsize], fun j _ => hzero j⟩ }

/-- A new read session: the header's length passed its test, and it fits `BS_LEN` (R40). -/
theorem State.Inv.openedRead (hs : s.Inv) (hidle : s.bsMode = .idle) (hok : s.storage.acceptable) :
    State.Inv { s with
      bsLen := BitVec.ofNat 32 s.storage.declaredLen, bsRemain := BitVec.ofNat 32 s.storage.declaredLen, bsMode := .read } := by
  have hmode := hs.mode
  simp only [modeInv, hidle] at hmode
  have hlen : (BitVec.ofNat 32 s.storage.declaredLen).toNat = s.storage.declaredLen := by
    rw [BitVec.toNat_ofNat, Nat.mod_eq_of_lt s.storage.declaredLen_lt]
  exact { hs with remain := le_rfl, mode := ⟨hmode, hok.1, hlen.symm ▸ hok.2⟩ }

/-- Appending bits: the flushed bytes are counted, and the placeholder header lies below the first of them (R39, R124). -/
theorem State.Inv.appended (hs : s.Inv) (hmode : s.bsMode = .write) {n : Nat} {v : BitVec 32} (hn : n ≤ 32)
    (htotal : s.bsTotal.toNat + n ≤ Config.maxTotal) {t : State} (h : appendBits n v s = .next t) : t.Inv := by
  have hwrite := hs.mode
  simp only [modeInv, hmode, Config.hdr] at hwrite
  obtain ⟨hnacc, hsize, hzero⟩ := hwrite
  obtain ⟨t', ht', -, htot, hnacc', -, hacc', -, hwf, hsize', hbytes, hm, hlen, hremain, ⟨hopl, hcount⟩, herr, -⟩ :=
    appendBits_spec n v s hs hmode hn htotal
  cases ht'.symm.trans h
  refine ⟨by rw [hcount, hopl, hs.count], hopl ▸ hs.capacity, hopl ▸ hs.sorted, hacc', by rw [hremain, hlen]; exact hs.remain,
    herr ▸ hs.errlog, hwf, ?_⟩
  rw [modeInv, hm, hmode]
  simp only [Config.hdr]
  refine ⟨by omega, by omega, fun j hj => ?_⟩
  rw [hbytes j (by omega), hzero j hj]

theorem State.Inv.took (hs : s.Inv) (n : Nat) :
    State.Inv { s with bsRemain := BitVec.ofNat 32 (s.bsRemain.toNat - n) } := by
  have hremain := hs.remain
  refine { hs with remain := ?_, mode := hs.mode }
  simp only [BitVec.toNat_ofNat]
  omega

/-- A closed write session: its Storage is well formed and nothing is pending (R41, R128). -/
theorem State.Inv.closedWrite (hs : s.Inv) (hmode : s.bsMode = .write) {t : State} (h : closeWrite s = .next t) : t.Inv := by
  obtain ⟨st, hst, hwf, -⟩ := closeWrite_spec s hs hmode
  cases hst.symm.trans h
  have hclosed : State.Inv { s with storage := st, bsAcc := 0, bsNacc := 0, bsMode := .idle } :=
    { hs with acc := emptyBuffer_acc, storage := hwf, mode := rfl }
  exact hclosed.withResponse 0 0

/-- A closed read session: Read mode had nothing pending either (R40, R41). -/
theorem State.Inv.closedRead (hs : s.Inv) (hmode : s.bsMode = .read) : State.Inv { s with bsMode := .idle } := by
  have hread := hs.mode
  simp only [modeInv, hmode] at hread
  exact { hs with mode := hread.1 }

end Arms

/-- Every effect of a command keeps the invariant. -/
theorem Effect.inv {i : Instr} {s t : State} (h : Effect s i t) (hs : s.Inv) : t.Inv := by
  cases h with
  | raised k h5 h6 => exact hs.withFault k h5 h6
  | answered d hi => exact hs.withResponse 0 d
  | inserted p w hroom => exact (hs.inserted p w hroom).withResponse _ _
  | removed e rest hcount hopl => exact (hs.removed hopl).withResponse _ _
  | openedWrite st hidle hwf hsize hzero => exact (hs.openedWrite hwf hsize hzero).withResponse _ _
  | openedRead hidle hok => exact (hs.openedRead hidle hok).withResponse _ _
  | appended n v st acc nacc total hlegal hmode htotal hsize happend => exact hs.appended hmode hlegal htotal happend
  | took n hmode hn => exact (hs.took n.toNat).withResponse _ _
  | closedWrite st hmode hsize hclose => exact hs.closedWrite hmode hclose
  | closedRead hmode => exact (hs.closedRead hmode).withResponse _ _

theorem runWord_inv {w : CmdWord} {s t : State} (hs : s.Inv) (h : runWord w s = .next t) : t.Inv := by
  unfold runWord at h
  split at h
  · exact (exec_effect h).inv hs
  · cases h; exact hs.withFault _ nofun nofun

/-! ## The host's moves that are no commands -/

/-- Reset clears every register and the OPL, so only the Storage it keeps must be well formed (R231, R232). -/
theorem resetBlock_inv {s : State} (h : Storage.wf s.storage) : (resetBlock s).Inv :=
  ⟨rfl, Nat.zero_le _, List.Pairwise.nil, emptyBuffer_acc, le_rfl, .inl (Nat.zero_le _), h, rfl⟩

/-- Settles O42: the reset state is a reset of itself. -/
theorem resetMeetsTheInvariant : Obligations.ResetMeetsTheInvariant :=
  resetBlock_inv (s := State.reset) reset_storage_wf

/-- While Idle the invariant asks of the Storage only that it is well formed (R41). -/
theorem hostLoadStorage_inv {image : List Byte} {s t : State} (hs : s.Inv) (h : hostLoadStorage image s = .next t) : t.Inv := by
  unfold hostLoadStorage at h
  split at h
  · cases h
  · next hidle =>
    split at h
    · cases h
    · next hlen =>
      cases h
      have hmode := hs.mode
      simp only [modeInv, not_not.mp hidle] at hmode
      exact { hs with storage := Storage.ofBytes_wf _ (Nat.le_of_not_lt hlen), mode := by simpa only [modeInv, not_not.mp hidle] }

theorem hostReadStorage_inv {s t : State} (hs : s.Inv) (h : hostReadStorage s = .next t) : t.Inv := by
  unfold hostReadStorage at h
  split at h
  · cases h
  · cases h; exact { hs with mode := hs.mode }

/-- Settles O43, by cases on the host's next move, a command's by its effect. -/
theorem everyStepKeepsTheInvariant : Obligations.EveryStepKeepsTheInvariant := by
  unfold Obligations.EveryStepKeepsTheInvariant
  intro s t hs h
  unfold step at h
  split at h
  · cases h; exact hs
  · next w rest hmoves => exact runWord_inv (hs.withMoves rest) h
  · cases h; exact resetBlock_inv hs.storage
  · next image rest hmoves => exact hostLoadStorage_inv (hs.withMoves rest) h
  · next rest hmoves => exact hostReadStorage_inv (hs.withMoves rest) h

/-! ## What the invariant gives BS.READ -/

/-- Settles O23: the invariant puts the whole declared payload in the Storage (R40), so the bits of a read that `BS_REMAIN` allows lie
there. -/
theorem readWithinTheDeclaredLengthCompletes : Obligations.ReadWithinTheDeclaredLengthCompletes := by
  unfold Obligations.ReadWithinTheDeclaredLengthCompletes
  intro s n hs hread hn hle
  have hmode := hs.mode
  simp only [modeInv, hread] at hmode
  obtain ⟨-, hheader, hpayload⟩ := hmode
  have hremain := hs.remain
  have hfits : Config.hdr + ceil8 (s.bsLen.toNat - s.bsRemain.toNat + n.toNat) ≤ s.storage.fileSize := by
    simp only [Config.hdr, ceil8] at hheader hpayload ⊢
    omega
  have hlegal : bitCountLegal n = true := by simpa [bitCountLegal] using hn
  have hexec : exec (.bsRead n) s = takeBits n.toNat s := by
    simp only [exec, execBsRead, hlegal, hread, Nat.not_lt.mpr hle, Nat.not_lt.mpr hremain, Nat.not_lt.mpr hfits, Bool.true_eq_false,
      ne_eq, not_true_eq_false, if_false]
  exact ⟨_, hexec.trans (takeBits_spec n.toNat s hfits), rfl⟩

end Sys2Proof.Machine
end

section
/-! The commands and the host moves against the state's parts (R58, R59, R63, R100, R247): a step runs the word issued, the host loads and reads the
Storage, and the OPL and BSC commands that complete share only the response they overwrite. -/

namespace Sys2Proof.Machine

/-! ## One step -/

theorem step_of_issue {s : State} {w : CmdWord} {rest : List HostMove} {i : Instr} (hmoves : s.moves = .issue w :: rest)
    (hdecode : decode w = .ok i) : step s = exec i { s with moves := rest } := by
  simp only [step, hmoves, runWord, hdecode]

theorem step_of_loadStorage {s : State} {image : List Byte} {rest : List HostMove} (hmoves : s.moves = .loadStorage image :: rest)
    (hidle : s.bsMode = .idle) (hlen : image.length ≤ Config.storeMax) :
    step s = .next { s with storage := Storage.ofBytes image, reply := .nothing, moves := rest } := by
  simp only [step, hmoves]
  exact hostLoadStorage_of_idle hidle hlen

theorem step_of_readStorage {s : State} {rest : List HostMove} (hmoves : s.moves = .readStorage :: rest) (hidle : s.bsMode = .idle) :
    step s = .next { s with reply := .storageImage s.storage.bytes, moves := rest } := by
  simp only [step, hmoves]
  exact hostReadStorage_of_idle hidle

theorem decodeTableWord_eq_some {nbits w : Nat} {i : Instr} (h : decodeTableWord nbits w = some i) :
    decode (wordOfTable nbits w) = .ok i := by
  unfold decodeTableWord at h
  split at h
  · next hdecode => cases h; exact hdecode
  · cases h

/-- Settles O6: `withFetchWord` puts its word before the moves to come, so its clause is the first one's. -/
theorem stepRunsTheIssuedCommand : Obligations.StepRunsTheIssuedCommand := by
  unfold Obligations.StepRunsTheIssuedCommand
  exact ⟨fun _ _ _ _ => step_of_issue, fun s nbits w _ h => step_of_issue (withFetchWord_moves s nbits w) (decodeTableWord_eq_some h)⟩

/-! ## The host and the Storage -/

/-- What is loaded is what is read (R35). -/
@[simp] theorem Storage.bytes_ofBytes (image : List Byte) : (Storage.ofBytes image).bytes = image :=
  Storage.bytes_eq (Storage.ofBytes_fileSize image) fun a _ => Storage.ofBytes_byte image a

/-- Settles O39: the two steps are the load and the read, and the bytes of a loaded image are the image. -/
theorem hostLoadThenReadGivesTheImage : Obligations.HostLoadThenReadGivesTheImage := by
  unfold Obligations.HostLoadThenReadGivesTheImage
  intro s image rest hmoves hidle hlen
  refine ⟨_, _, step_of_loadStorage hmoves hidle hlen, Storage.bytes_ofBytes image, Storage.ofBytes_fileSize image,
    Storage.ofBytes_wf image hlen, ⟨rfl, rfl, rfl, rfl, rfl, rfl⟩, ⟨rfl, rfl⟩, rfl, step_of_readStorage rfl hidle, ?_,
    ⟨rfl, rfl, rfl, rfl, rfl, rfl⟩, ⟨rfl, rfl⟩, rfl, rfl, rfl⟩
  exact congrArg HostReply.storageImage (Storage.bytes_ofBytes image)

/-! ## What an OPL command touches -/

/-- Settles O14, by the effect of each of the three commands: none of its arms writes a field of the BSC. -/
theorem oplCommandsFrame : Obligations.OplCommandsFrame := by
  unfold Obligations.OplCommandsFrame
  intro i s t hi h
  obtain ⟨p, w, rfl⟩ | rfl | rfl := hi
  · cases exec_effect h with
    | raised | answered | inserted => exact ⟨⟨rfl, rfl, rfl, rfl, rfl, rfl⟩, ⟨rfl, fun _ => rfl⟩, rfl, nofun⟩
  · cases exec_effect h with
    | raised | answered | removed => exact ⟨⟨rfl, rfl, rfl, rfl, rfl, rfl⟩, ⟨rfl, fun _ => rfl⟩, rfl, nofun⟩
  · cases h
    exact ⟨⟨rfl, rfl, rfl, rfl, rfl, rfl⟩, ⟨rfl, fun _ => rfl⟩, rfl, fun _ => ⟨⟨rfl, rfl⟩, rfl⟩⟩

theorem execPqInsert_of_room {p : BitVec 16} {w : BitVec 32} {s : State} (hroom : s.pqCount.toNat ≠ Config.pqCapacity) :
    execPqInsert p w s =
      .next (State.withResponse { s with opl := oplInsert (entryOf p w) s.opl, pqCount := s.pqCount + 1 } 0 0) :=
  if_neg hroom

theorem execPqRemoveMin_of_cons {s : State} {e : Entry} {rest : List Entry} (hcount : s.pqCount ≠ 0) (hopl : s.opl = e :: rest) :
    execPqRemoveMin s = .next (State.withResponse { s with opl := rest, pqCount := s.pqCount - 1 } e.payload e.weight) := by
  simp only [execPqRemoveMin, hcount, if_false, hopl, respond_eq]

/-- An OPL command that completes reads the OPL alone: in any other state with the same OPL it leaves the same OPL and the same response, and
writes nothing else. -/
theorem oplCommand_of_sameOpl {p : Instr} {s t : State} (hp : (∃ pay w, p = .pqInsert pay w) ∨ p = .pqRemoveMin ∨ p = .pqSize)
    (h : exec p s = .next t) (hdone : t.reply.faultless) {s' : State} (hopl : sameOpl s s') :
    exec p s' = .next { s' with opl := t.opl, pqCount := t.pqCount, reply := t.reply } := by
  obtain ⟨hentries, hcount⟩ := hopl
  obtain ⟨pay, w, rfl⟩ | rfl | rfl := hp
  · cases exec_effect h with
    | raised k h5 h6 => exact absurd hdone (withFault_not_faultless s k)
    | answered d hi => simp at hi
    | inserted _ _ hroom =>
      rw [← hcount] at hroom
      exact (execPqInsert_of_room hroom).trans (by rw [hentries, hcount]; rfl)
  · cases exec_effect h with
    | raised k h5 h6 => exact absurd hdone (withFault_not_faultless s k)
    | answered d hi => simp at hi
    | removed e rest hne hcons =>
      exact (execPqRemoveMin_of_cons (hcount ▸ hne) (hentries.trans hcons)).trans (by rw [hcount]; rfl)
  · cases h
    simp only [exec, execPqSize, respond_eq, State.withResponse, ← hentries, ← hcount]

/-! ## What a BSC command touches -/

/-- The outcome with this OPL in the next state. -/
def carryOpl (l : List Entry) (c : BitVec 9) : Result → Result
  | .next t => .next { t with opl := l, pqCount := c }
  | .fault f => .fault f
  | .refused x => .refused x

section OplBlind

variable (s : State) (l : List Entry) (c : BitVec 9) (r : HostReply)

theorem openWrite_oplBlind : openWrite { s with opl := l, pqCount := c, reply := r } = carryOpl l c (openWrite s) := by
  unfold openWrite
  split <;> rfl

theorem openRead_oplBlind : openRead { s with opl := l, pqCount := c, reply := r } = carryOpl l c (openRead s) := by
  unfold openRead
  dsimp only
  split
  · rfl
  · split
    · rfl
    · split <;> rfl

theorem execBsOpen_oplBlind (mode : BitVec 8) :
    execBsOpen mode { s with opl := l, pqCount := c, reply := r } = carryOpl l c (execBsOpen mode s) := by
  unfold execBsOpen
  split
  · rfl
  · split
    · rfl
    · split
      · exact openWrite_oplBlind s l c r
      · exact openRead_oplBlind s l c r

theorem appendBits_oplBlind (n : Nat) (v : BitVec 32) :
    appendBits n v { s with opl := l, pqCount := c, reply := r } = carryOpl l c (appendBits n v s) := by
  unfold appendBits
  dsimp only
  split <;> rfl

theorem execBsWrite_oplBlind (n : BitVec 8) (v : BitVec 32) :
    execBsWrite n v { s with opl := l, pqCount := c, reply := r } = carryOpl l c (execBsWrite n v s) := by
  unfold execBsWrite
  split
  · rfl
  split
  · rfl
  split
  · rfl
  split
  · rfl
  · exact appendBits_oplBlind s l c r _ _

theorem takeBits_oplBlind (n : Nat) : takeBits n { s with opl := l, pqCount := c, reply := r } = carryOpl l c (takeBits n s) := by
  unfold takeBits
  dsimp only
  split <;> rfl

theorem execBsRead_oplBlind (n : BitVec 8) :
    execBsRead n { s with opl := l, pqCount := c, reply := r } = carryOpl l c (execBsRead n s) := by
  unfold execBsRead
  split
  · rfl
  split
  · rfl
  split
  · rfl
  split
  · rfl
  split
  · rfl
  · exact takeBits_oplBlind s l c r _

theorem execBsMore_oplBlind : execBsMore { s with opl := l, pqCount := c, reply := r } = carryOpl l c (execBsMore s) := by
  unfold execBsMore
  split
  · rfl
  · split <;> rfl

theorem closeWrite_oplBlind : closeWrite { s with opl := l, pqCount := c, reply := r } = carryOpl l c (closeWrite s) := by
  have hpad : padBytes { s with opl := l, pqCount := c, reply := r } = padBytes s := rfl
  unfold closeWrite
  rw [hpad]
  dsimp only
  split
  · rfl
  · split <;> rfl

theorem execBsClose_oplBlind : execBsClose { s with opl := l, pqCount := c, reply := r } = carryOpl l c (execBsClose s) := by
  unfold execBsClose
  dsimp only
  split
  · rfl
  · exact closeWrite_oplBlind s l c r
  · rfl

/-- A BSC command reads neither the OPL nor the latest response and hands the OPL on: under another OPL it gives the same outcome with that
OPL. -/
theorem bscCommand_oplBlind {b : Instr}
    (hb : (∃ m, b = .bsOpen m) ∨ (∃ n v, b = .bsWrite n v) ∨ (∃ n, b = .bsRead n) ∨ b = .bsMore ∨ b = .bsClose) :
    exec b { s with opl := l, pqCount := c, reply := r } = carryOpl l c (exec b s) := by
  obtain ⟨m, rfl⟩ | ⟨n, v, rfl⟩ | ⟨n, rfl⟩ | rfl | rfl := hb
  · exact execBsOpen_oplBlind s l c r m
  · exact execBsWrite_oplBlind s l c r n v
  · exact execBsRead_oplBlind s l c r n
  · exact execBsMore_oplBlind s l c r
  · exact execBsClose_oplBlind s l c r

end OplBlind

/-- Settles O47: the first state's OPL under the BSC command gives the first command's outcome with that OPL, and from there the OPL command does
what it did at first. -/
theorem oplAndBscCommandsCommute : Obligations.OplAndBscCommandsCommute := by
  unfold Obligations.OplAndBscCommandsCommute
  intro p b s t u x y hp hb hpt hx hx0 hbu hy _
  have hopl : ∀ {s' : State}, sameOpl s s' → exec p s' = .next { s' with opl := t.opl, pqCount := t.pqCount, reply := t.reply } :=
    oplCommand_of_sameOpl hp hpt ((HostReply.faultless_iff hx).mpr hx0)
  have ht : t = { s with opl := t.opl, pqCount := t.pqCount, reply := t.reply } :=
    Host.Outcome.next.inj (hpt.symm.trans (hopl ⟨rfl, rfl⟩))
  have hbs : exec b s = .next { u with opl := s.opl, pqCount := s.pqCount } := by
    have hblind := bscCommand_oplBlind t s.opl s.pqCount s.reply hb
    rw [hbu, ht] at hblind
    exact hblind
  have hu : u = { u with opl := t.opl, pqCount := t.pqCount } := by
    have hblind := bscCommand_oplBlind t t.opl t.pqCount t.reply hb
    rw [hbu] at hblind
    exact Host.Outcome.next.inj hblind
  exact ⟨_, _, hbs, hy, hopl ⟨rfl, rfl⟩, hx, hu.symm⟩

end Sys2Proof.Machine
end

section
/-! The encoding (R75, R76, R83 to R86, R90): the decoder accepts exactly the words of the commands with legal operands, and these are the words the
rows of the opcode map select. -/

namespace Sys2Proof

/-! ## From a command to its word and back -/

/-- The decoder reads the word of a command with legal operands back as that command. -/
theorem decode_encode {i : Instr} (h : i.wf = true) : decode (encode i) = .ok i := by
  cases i with
  | pqInsert | pqRemoveMin | pqSize | bsOpen | bsMore | bsClose => simp [decode, encode, checkReserved]
  | bsWrite n | bsRead n =>
    have hcount : Instr.bitCountOk n = true := h
    simp [decode, encode, checkReserved, hcount]
  | rdReg num =>
    have hnum : Instr.regNumOk num = true := h
    simp [decode, encode, checkReserved, hnum]

/-- Settles O1, by cases on the command. -/
theorem decodeOfEncodeIsTheCommand : Obligations.DecodeOfEncodeIsTheCommand := fun _ => decode_encode

/-- Settles O5: each of the nine words is the encoding of its command. -/
theorem wordsOfTheSpecDecode : Obligations.WordsOfTheSpecDecode :=
  ⟨decode_encode (i := .pqInsert 9 5) rfl, decode_encode (i := .pqRemoveMin) rfl, decode_encode (i := .pqSize) rfl,
    decode_encode (i := .bsOpen 1) rfl, decode_encode (i := .bsWrite 32 0xA5C3F00F#32) rfl, decode_encode (i := .bsRead 9) rfl,
    decode_encode (i := .bsMore) rfl, decode_encode (i := .bsClose) rfl, decode_encode (i := .rdReg 8) rfl⟩

/-! ## From an accepted word to its command -/

/-- A word of a format that uses `OP` alone. -/
theorem mkWord_of_formatN {w : CmdWord} {op : BitVec 8} (hop : opField w = op)
    (hzero : (decide (auxField w = 0#8) && decide (payField w = 0#16) && decide (dataField w = 0#32)) = true) :
    mkWord op 0#8 0#16 0#32 = w := by
  simp only [Bool.and_eq_true, decide_eq_true_eq] at hzero
  obtain ⟨⟨haux, hpay⟩, hdata⟩ := hzero
  exact (eq_mkWord_of_fields hop haux hpay hdata).symm

/-- A word of a format that uses `OP` and `AUX`. -/
theorem mkWord_of_formatA {w : CmdWord} {op : BitVec 8} (hop : opField w = op)
    (hzero : (decide (payField w = 0#16) && decide (dataField w = 0#32)) = true) :
    mkWord op (auxField w) 0#16 0#32 = w := by
  simp only [Bool.and_eq_true, decide_eq_true_eq] at hzero
  obtain ⟨hpay, hdata⟩ := hzero
  exact (eq_mkWord_of_fields hop rfl hpay hdata).symm

/-- A word whose reserved fields are checked last is accepted as that command alone. -/
theorem accepted_of_checkReserved {zero : Bool} {w : CmdWord} {i j : Instr} (h : checkReserved zero j = .ok i) (hwf : j.wf = true)
    (hword : zero = true → encode j = w) : i.wf = true ∧ encode i = w := by
  obtain ⟨hzero, rfl⟩ := checkReserved_eq_ok.mp h
  exact ⟨hwf, hword hzero⟩

/-- Settles O2, by the branches of the decoder: its tests on `OP`, the further condition and the reserved fields leave one word. -/
theorem acceptedWordIsItsEncoding : Obligations.AcceptedWordIsItsEncoding := by
  unfold Obligations.AcceptedWordIsItsEncoding
  intro w i h
  unfold decode at h
  dsimp only at h
  split at h
  next hop =>
    exact accepted_of_checkReserved h rfl fun haux => (eq_mkWord_of_fields hop (of_decide_eq_true haux) rfl rfl).symm
  split at h
  next hop => exact accepted_of_checkReserved h rfl (mkWord_of_formatN hop)
  split at h
  next hop => exact accepted_of_checkReserved h rfl (mkWord_of_formatN hop)
  split at h
  next hop => exact accepted_of_checkReserved h rfl (mkWord_of_formatA hop)
  split at h
  next hop =>
    split at h
    next hcount =>
      exact accepted_of_checkReserved h hcount fun hpay => (eq_mkWord_of_fields hop rfl (of_decide_eq_true hpay) rfl).symm
    next => cases h
  split at h
  next hop =>
    split at h
    next hcount => exact accepted_of_checkReserved h hcount (mkWord_of_formatA hop)
    next => cases h
  split at h
  next hop => exact accepted_of_checkReserved h rfl (mkWord_of_formatN hop)
  split at h
  next hop => exact accepted_of_checkReserved h rfl (mkWord_of_formatN hop)
  split at h
  next hop =>
    split at h
    next hnum => exact accepted_of_checkReserved h hnum (mkWord_of_formatA hop)
    next => cases h
  next => cases h

/-- What the decoder accepts: the words of the commands with legal operands (R85, R90). -/
theorem decode_eq_ok_iff {w : CmdWord} {i : Instr} : decode w = .ok i ↔ i.wf = true ∧ encode i = w := by
  constructor
  · exact acceptedWordIsItsEncoding w i
  · rintro ⟨hwf, rfl⟩
    exact decode_encode hwf

/-! ## The rows of the opcode map -/

theorem mem_opcodeTable_iff {r : OpRow} : r ∈ opcodeTable ↔ ∃ i : Instr, i.row = r := by
  constructor
  · intro h
    simp only [opcodeTable, List.mem_cons, List.not_mem_nil, or_false] at h
    obtain rfl | rfl | rfl | rfl | rfl | rfl | rfl | rfl | rfl := h <;> exact ⟨_, rfl⟩
  · rintro ⟨i, rfl⟩
    cases i <;> simp [opcodeTable, Instr.row]

/-- A command's word meets the match and mask of its row. -/
theorem encode_and_mask (i : Instr) : encode i &&& i.row.mask = i.row.matchBits := by
  cases i with
  | pqInsert payload weight => exact Laws.EncodesInRow.pqInsert payload weight
  | pqRemoveMin => exact Laws.EncodesInRow.pqRemoveMin
  | pqSize => exact Laws.EncodesInRow.pqSize
  | bsOpen mode => exact Laws.EncodesInRow.bsOpen mode
  | bsWrite n value => exact Laws.EncodesInRow.bsWrite n value
  | bsRead n => exact Laws.EncodesInRow.bsRead n
  | bsMore => exact Laws.EncodesInRow.bsMore
  | bsClose => exact Laws.EncodesInRow.bsClose
  | rdReg num => exact Laws.EncodesInRow.rdReg num

/-- Legal operands are the further condition on the command's word. -/
theorem wf_iff_aux_le (i : Instr) : i.wf = true ↔ (auxField (encode i)).toNat ≤ i.row.auxMax := by
  cases i with
  | pqInsert | pqRemoveMin | pqSize | bsMore | bsClose => simp [Instr.wf, Instr.row, encode]
  | bsOpen mode => simpa [Instr.wf, Instr.row, encode] using Nat.le_of_lt_succ mode.isLt
  | bsWrite n | bsRead n => simp [Instr.wf, Instr.row, encode, Instr.bitCountOk]
  | rdReg num => simp [Instr.wf, Instr.row, encode, Instr.regNumOk, Nat.lt_succ_iff]

/-- The row of a command selects the command's word exactly when its operands are legal (R83, R84). -/
theorem row_selects_encode_iff (i : Instr) : i.row.selects (encode i) = true ↔ i.wf = true := by
  rw [OpRow.selects_iff, wf_iff_aux_le, and_iff_right (encode_and_mask i)]

/-- The fields of a word that meets a match and mask. -/
theorem fields_of_masked {w : CmdWord} {o o' a a' : BitVec 8} {p p' : BitVec 16} {d d' : BitVec 32}
    (h : w &&& mkWord o' a' p' d' = mkWord o a p d) :
    opField w &&& o' = o ∧ auxField w &&& a' = a ∧ payField w &&& p' = p ∧ dataField w &&& d' = d := by
  rwa [← mkWord_fields w, mkWord_and, mkWord_inj] at h

theorem mkWord_of_maskedA {w : CmdWord} {op : BitVec 8}
    (h : w &&& mkWord 0xFF#8 0#8 0xFFFF#16 0xFFFFFFFF#32 = mkWord op 0#8 0#16 0#32) : mkWord op (auxField w) 0#16 0#32 = w := by
  obtain ⟨hop, -, hpay, hdata⟩ := fields_of_masked h
  exact (eq_mkWord_of_fields (BitVec.and_allOnes.symm.trans hop) rfl (BitVec.and_allOnes.symm.trans hpay)
    (BitVec.and_allOnes.symm.trans hdata)).symm

/-- A word that meets a row's match and mask is the word of a command of that row. -/
theorem exists_encode_of_masked {i : Instr} {w : CmdWord} (h : w &&& i.row.mask = i.row.matchBits) :
    ∃ j, j.row = i.row ∧ encode j = w := by
  cases i with
  | pqInsert payload weight =>
    have hmasked : w &&& mkWord 0xFF#8 0xFF#8 0#16 0#32 = mkWord 0x10#8 0#8 0#16 0#32 := h
    obtain ⟨hop, haux, -, -⟩ := fields_of_masked hmasked
    exact ⟨.pqInsert (payField w) (dataField w), rfl,
      (eq_mkWord_of_fields (BitVec.and_allOnes.symm.trans hop) (BitVec.and_allOnes.symm.trans haux) rfl rfl).symm⟩
  | bsWrite n value =>
    have hmasked : w &&& mkWord 0xFF#8 0#8 0xFFFF#16 0#32 = mkWord 0x21#8 0#8 0#16 0#32 := h
    obtain ⟨hop, -, hpay, -⟩ := fields_of_masked hmasked
    exact ⟨.bsWrite (auxField w) (dataField w), rfl,
      (eq_mkWord_of_fields (BitVec.and_allOnes.symm.trans hop) rfl (BitVec.and_allOnes.symm.trans hpay) rfl).symm⟩
  | bsOpen mode => exact ⟨.bsOpen (auxField w), rfl, mkWord_of_maskedA h⟩
  | bsRead n => exact ⟨.bsRead (auxField w), rfl, mkWord_of_maskedA h⟩
  | rdReg num => exact ⟨.rdReg (auxField w), rfl, mkWord_of_maskedA h⟩
  | pqRemoveMin => exact ⟨.pqRemoveMin, rfl, (BitVec.and_allOnes.symm.trans h).symm⟩
  | pqSize => exact ⟨.pqSize, rfl, (BitVec.and_allOnes.symm.trans h).symm⟩
  | bsMore => exact ⟨.bsMore, rfl, (BitVec.and_allOnes.symm.trans h).symm⟩
  | bsClose => exact ⟨.bsClose, rfl, (BitVec.and_allOnes.symm.trans h).symm⟩

/-- Settles O3: a word that meets a row's match and mask is the word of a command of the row, and the further condition is that this command has
legal operands. -/
theorem legalWordsAreExactlyTheRows : Obligations.LegalWordsAreExactlyTheRows := by
  unfold Obligations.LegalWordsAreExactlyTheRows
  intro w r hr
  obtain ⟨i, rfl⟩ := mem_opcodeTable_iff.mp hr
  constructor
  · intro hsel
    obtain ⟨j, hrow, rfl⟩ := exists_encode_of_masked ((OpRow.selects_iff _ _).mp hsel).1
    rw [← hrow, row_selects_encode_iff] at hsel
    exact ⟨j, decode_encode hsel, hrow⟩
  · rintro ⟨j, hdecode, hrow⟩
    obtain ⟨hwf, rfl⟩ := decode_eq_ok_iff.mp hdecode
    rw [← hrow]
    exact (row_selects_encode_iff j).mpr hwf

/-! ## Disjoint rows -/

/-- Every row asks for all of `OP`. -/
theorem opField_mask_of_mem : ∀ r ∈ opcodeTable, opField r.mask = BitVec.allOnes 8 := by decide

theorem opField_of_masked {r : OpRow} (hr : r ∈ opcodeTable) {w : CmdWord} (h : w &&& r.mask = r.matchBits) :
    opField w = opField r.matchBits := by
  rw [← h, opField_and, opField_mask_of_mem r hr, BitVec.and_allOnes]

/-- The `OP` values of the map differ (R83). -/
theorem opcodeTable_op_nodup : opcodeTable.Pairwise fun r q => opField r.matchBits ≠ opField q.matchBits := by decide

/-- Settles O4: a word on two rows would have the `OP` values of both. -/
theorem opcodeRowsAreDisjoint : Obligations.OpcodeRowsAreDisjoint :=
  opcodeTable_op_nodup.imp_of_mem fun hr hq hne _ ⟨hw, hw'⟩ =>
    hne ((opField_of_masked hr hw).symm.trans (opField_of_masked hq hw'))

end Sys2Proof
end

section
/-! Every command's response (R77, R200, R205, R206), and the command terms no legal word carries (R84, R209; log entry 9). -/

namespace Sys2Proof.Machine

/-- A code the block raises is 1 to 4 or 7 to 9: `ERRLOG` holds it after the first fault (R22, R200). -/
theorem code_legal {k : FaultKind} (h5 : k ≠ .internalInvariantError) (h6 : k ≠ .symbolNotInTableError) : errlogLegal k.code :=
  errlogAfter_legal (e := 0) (.inl (Nat.zero_le _)) h5 h6

/-- Settles O33, by the two ways a command ends. -/
theorem everyCommandGivesOneResponse : Obligations.EveryCommandGivesOneResponse := by
  unfold Obligations.EveryCommandGivesOneResponse
  intro i s t h
  cases exec_ends h with
  | raised k h5 h6 =>
    refine ⟨_, withFault_reply s k, respReserved_respWord _ _ _, ?_, fun _ => respPay_respWord _ _ _⟩
    rw [respStatus_respWord, BitVec.toNat_setWidth_of_le (by decide)]
    exact code_legal h5 h6
  | completed u p d he hm hp =>
    refine ⟨_, withResponse_reply u p d, respReserved_respWord _ _ _, .inl ?_, fun hi => ?_⟩
    · rw [respStatus_respWord]
      exact Nat.zero_le _
    · rw [respPay_respWord, hp hi]

/-- There is no register above `x[8]` (R22, R150). -/
theorem readReg_eq_none {s : State} {num : Nat} (h : Config.nreg ≤ num) : readReg s num = none := by
  obtain ⟨k, rfl⟩ := Nat.exists_eq_add_of_le' h
  rfl

/-- Settles O57: each of the three commands with a further condition tests it first. -/
theorem termsNoWordCarriesRaiseIllegalCommand : Obligations.TermsNoWordCarriesRaiseIllegalCommand := by
  unfold Obligations.TermsNoWordCarriesRaiseIllegalCommand
  intro i s h
  cases i with
  | pqInsert | pqRemoveMin | pqSize | bsOpen | bsMore | bsClose => cases h
  | bsWrite n value =>
    have hraise : exec (.bsWrite n value) s = raise .illegalCommand s := if_pos h
    rw [hraise]
    exact raise_raisesOnly _ s
  | bsRead n =>
    have hraise : exec (.bsRead n) s = raise .illegalCommand s := if_pos h
    rw [hraise]
    exact raise_raisesOnly _ s
  | rdReg num =>
    have hnum : Config.nreg ≤ num.toNat := Nat.le_of_not_lt (of_decide_eq_false h)
    have hraise : exec (.rdReg num) s = raise .illegalCommand s := by rw [exec, execRdReg, readReg_eq_none hnum]
    rw [hraise]
    exact raise_raisesOnly _ s

end Sys2Proof.Machine
end

section
/-! Runs of BS.WRITE in an open write session (R124, R132), and BS.WRITECODE, which is one of them (R89, R175). -/

namespace Sys2Proof.Machine

/-! ## Writing bits -/

/-- In a write session BS.WRITE appends when its count is legal and the new total fits the header (R124). -/
theorem execBsWrite_of_fits {n : BitVec 8} {s : State} (v : BitVec 32) (hmode : s.bsMode = .write) (hn : n.toNat ≤ 32)
    (htotal : s.bsTotal.toNat + n.toNat ≤ Config.maxTotal) : execBsWrite n v s = appendBits n.toNat v s := by
  have hlegal : bitCountLegal n = true := decide_eq_true hn
  rw [execBsWrite, if_neg (by simp [hlegal]), if_neg (not_not.mpr hmode), if_neg (Nat.not_lt.mpr htotal),
    if_neg (Nat.not_lt.mpr (fits_storage htotal))]

/-- BS.WRITE commands whose bits fit the header all complete and append their bits in order; the session stays open (R124, R132). -/
theorem runCommands_bsWrite (ws : List (BitVec 8 × BitVec 32)) {s : State} (hs : s.Inv) (hmode : s.bsMode = .write)
    (hn : ∀ p ∈ ws, p.1.toNat ≤ 32) (htotal : s.bsTotal.toNat + (ws.map fun p => p.1.toNat).sum ≤ Config.maxTotal) :
    ∃ t rs, runCommands (ws.map fun p => .bsWrite p.1 p.2) s = some (t, rs) ∧ allComplete rs ∧ t.Inv ∧ t.bsMode = .write ∧
      t.bsTotal.toNat = s.bsTotal.toNat + (ws.map fun p => p.1.toNat).sum ∧
      t.appended = s.appended ++ ws.flatMap fun p => bitsOf p.2.toNat p.1.toNat := by
  induction ws generalizing s with
  | nil => exact ⟨s, [], rfl, nofun, hs, hmode, rfl, (List.append_nil _).symm⟩
  | cons p ws ih =>
    obtain ⟨hp, hws⟩ := List.forall_mem_cons.mp hn
    rw [List.map_cons, List.sum_cons, ← Nat.add_assoc] at htotal
    have hfirst : s.bsTotal.toNat + p.1.toNat ≤ Config.maxTotal := (Nat.le_add_right _ _).trans htotal
    obtain ⟨u, happend, hreply, htot, -, -, -, hbits, -, -, -, hm, -⟩ := appendBits_spec p.1.toNat p.2 s hs hmode hp hfirst
    have hexec : exec (.bsWrite p.1 p.2) s = .next u := (execBsWrite_of_fits p.2 hmode hp hfirst).trans happend
    obtain ⟨t, rs, hrun, hdone, hinv, htm, httot, htbits⟩ :=
      ih (hs.appended hmode hp hfirst happend) (hm.trans hmode) hws (htot ▸ htotal)
    refine ⟨t, _, runCommands_cons hexec hreply hrun, List.forall_mem_cons.mpr ⟨respStatus_respWord _ _ _, hdone⟩, hinv, htm, ?_, ?_⟩
    · rw [httot, htot, List.map_cons, List.sum_cons, Nat.add_assoc]
    · rw [htbits, hbits, List.flatMap_cons, List.append_assoc]

/-! ## BS.WRITECODE -/

/-- The count and the value that BS.WRITEBITS gives BS.WRITE (R89). -/
def writeBitsOperands (b : List Bool) : BitVec 8 × BitVec 32 := (BitVec.ofNat 8 b.length, BitVec.ofNat 32 (bitsValue b))

theorem bsWriteBits_eq (b : List Bool) : bsWriteBits b = .bsWrite (writeBitsOperands b).1 (writeBitsOperands b).2 := rfl

theorem writeBitsOperands_count {b : List Bool} (h : b.length ≤ 32) : (writeBitsOperands b).1.toNat = b.length :=
  (BitVec.toNat_ofNat _ _).trans (Nat.mod_eq_of_lt (by omega))

/-- BS.WRITE of these operands writes the bits they are made of. -/
theorem bitsOf_writeBitsOperands {b : List Bool} (h : b.length ≤ 32) :
    bitsOf (writeBitsOperands b).2.toNat (writeBitsOperands b).1.toNat = b := by
  have hvalue : bitsValue b < 2 ^ 32 := (bitsValue_lt b).trans_le (Nat.pow_le_pow_right (by decide) h)
  rw [writeBitsOperands_count h, writeBitsOperands, BitVec.toNat_ofNat, Nat.mod_eq_of_lt hvalue, bitsOf_bitsValue]

theorem chunksOf32_length_le (fuel : Nat) (b : List Bool) : ∀ c ∈ chunksOf32 fuel b, c.length ≤ 32 := by
  induction fuel generalizing b with
  | zero => exact nofun
  | succ fuel ih =>
    rw [chunksOf32]
    split
    · exact nofun
    · exact List.forall_mem_cons.mpr ⟨List.length_take_le 32 b, ih _⟩

/-- With fuel for each of its bits, a code is its chunks one after the other. -/
theorem chunksOf32_flatten {fuel : Nat} {b : List Bool} (h : b.length ≤ fuel) : (chunksOf32 fuel b).flatten = b := by
  induction fuel generalizing b with
  | zero => exact (List.length_eq_zero_iff.mp (Nat.le_zero.mp h)).symm
  | succ fuel ih =>
    rw [chunksOf32]
    split
    next hempty => exact (List.isEmpty_iff.mp hempty).symm
    next hne =>
      rw [List.flatten_cons, ih (by rw [List.length_drop]; omega), List.take_append_drop]

/-- The operands of the BS.WRITE commands BS.WRITECODE expands to. -/
def writeCodeOperands (code : List Bool) : List (BitVec 8 × BitVec 32) := (chunksOf32 code.length code).map writeBitsOperands

theorem bsWriteCode_eq (code : List Bool) : bsWriteCode code = (writeCodeOperands code).map fun p => .bsWrite p.1 p.2 := by
  rw [bsWriteCode, writeCodeOperands, List.map_map]
  exact List.map_congr_left fun b _ => bsWriteBits_eq b

theorem writeCodeOperands_le (code : List Bool) : ∀ p ∈ writeCodeOperands code, p.1.toNat ≤ 32 := by
  refine List.forall_mem_map.mpr fun c hc => ?_
  have hlen := chunksOf32_length_le _ _ c hc
  rwa [writeBitsOperands_count hlen]

/-- The BS.WRITE commands write the code's bits. -/
theorem writeCodeOperands_bits (code : List Bool) :
    ((writeCodeOperands code).flatMap fun p => bitsOf p.2.toNat p.1.toNat) = code := by
  have hchunk : ∀ c ∈ chunksOf32 code.length code, bitsOf (writeBitsOperands c).2.toNat (writeBitsOperands c).1.toNat = c :=
    fun c hc => bitsOf_writeBitsOperands (chunksOf32_length_le _ _ c hc)
  rw [writeCodeOperands, List.flatMap_map, List.flatMap_congr hchunk, List.flatMap_id', chunksOf32_flatten le_rfl]

/-- The counts of the BS.WRITE commands add up to the code's length: they are the lengths of the bits written. -/
theorem writeCodeOperands_sum (code : List Bool) : ((writeCodeOperands code).map fun p => p.1.toNat).sum = code.length := by
  conv_rhs => rw [← writeCodeOperands_bits code, List.length_flatMap]
  simp only [bitsOf_length]

/-- Settles O49: BS.WRITECODE is a run of BS.WRITE over the chunks of the code. -/
theorem writeCodeAppendsTheWholeCode : Obligations.WriteCodeAppendsTheWholeCode := by
  unfold Obligations.WriteCodeAppendsTheWholeCode
  intro s code hs hmode htotal
  rw [← writeCodeOperands_sum code] at htotal
  obtain ⟨t, ws, hrun, hdone, -, hm, htot, hbits⟩ := runCommands_bsWrite _ hs hmode (writeCodeOperands_le code) htotal
  rw [writeCodeOperands_bits] at hbits
  rw [writeCodeOperands_sum] at htot
  exact ⟨t, ws, (bsWriteCode_eq code).symm ▸ hrun, hdone, hbits, hm, htot⟩

end Sys2Proof.Machine
end

section
/-! The OPL commands (R101 to R107): what each of them does to the entries, and what a run of insertions and removals returns. -/

namespace Sys2Proof.Machine

/-! ## One command -/

theorem execPqInsert_of_full {p : BitVec 16} {w : BitVec 32} {s : State} (hfull : s.pqCount.toNat = Config.pqCapacity) :
    execPqInsert p w s = raise .capacityError s := if_pos hfull

theorem execPqRemoveMin_of_empty {s : State} (hcount : s.pqCount = 0) : execPqRemoveMin s = raise .emptyCollectionError s :=
  if_pos hcount

/-- Settles O8: `oplInsert_split` gives the two parts of the list that the new entry lies between. -/
theorem insertPutsEntryBeforeEqualWeights : Obligations.InsertPutsEntryBeforeEqualWeights := by
  unfold Obligations.InsertPutsEntryBeforeEqualWeights
  intro s payload weight
  refine ⟨decode_encode (i := .pqInsert payload weight) rfl, fun hfull => ?_, fun hroom => ?_⟩
  · have hexec : exec (.pqInsert payload weight) s = raise .capacityError s := execPqInsert_of_full hfull
    rw [hexec]
    exact raise_raisesOnly _ s
  · obtain ⟨before, after, hopl, hinsert, hlt, hle⟩ := oplInsert_split (entryOf payload weight) s.opl
    exact ⟨_, before, after, ⟨execPqInsert_of_room hroom, rfl⟩, hopl, hinsert, hlt, hle, rfl, rfl,
      ⟨rfl, rfl, rfl, rfl, rfl, rfl⟩, rfl, rfl⟩

/-- Settles O9, by whether `PQ_COUNT` is 0. -/
theorem removeMinReturnsTheHead : Obligations.RemoveMinReturnsTheHead := by
  unfold Obligations.RemoveMinReturnsTheHead
  refine ⟨decode_encode (i := .pqRemoveMin) rfl, fun s => ⟨fun hcount => ?_, fun e rest hcount hopl => ?_⟩⟩
  · have hexec : exec .pqRemoveMin s = raise .emptyCollectionError s := execPqRemoveMin_of_empty hcount
    rw [hexec]
    exact raise_raisesOnly _ s
  · exact ⟨_, ⟨execPqRemoveMin_of_cons hcount hopl, rfl⟩, rfl, rfl, rfl, ⟨rfl, rfl, rfl, rfl, rfl, rfl⟩, rfl, rfl⟩

/-- Settles O10: PQ.SIZE answers with the response alone. -/
theorem sizeReturnsTheCount : Obligations.SizeReturnsTheCount := by
  unfold Obligations.SizeReturnsTheCount
  exact ⟨decode_encode (i := .pqSize) rfl, fun s =>
    ⟨_, ⟨respond_eq 0 (s.pqCount.setWidth 32) s, rfl⟩, rfl, ⟨rfl, rfl⟩, ⟨rfl, rfl, rfl, rfl, rfl, rfl⟩, rfl, rfl⟩⟩

/-- Settles O11, by the effect of the command: a sorted insertion, the tail, or the list as it was. -/
theorem oplOrderIsKept : Obligations.OplOrderIsKept := by
  unfold Obligations.OplOrderIsKept
  intro i s t hi hsorted h
  obtain ⟨p, w, rfl⟩ | rfl := hi
  · cases exec_effect h with
    | raised | answered => exact hsorted
    | inserted => exact oplInsert_sorted _ _ hsorted
  · cases exec_effect h with
    | raised | answered => exact hsorted
    | removed e rest hcount hopl => exact (hopl ▸ hsorted : oplSorted (e :: rest)).of_cons

/-! ## The count along a run -/

/-- Below the capacity `PQ_COUNT` counts one more entry without wrapping. -/
theorem toNat_count_add_one {c : BitVec 9} (h : c.toNat < Config.pqCapacity) : (c + 1).toNat = c.toNat + 1 := by
  have hlt : c.toNat < 256 := h
  rw [BitVec.toNat_add_of_lt (by rw [toNat_one_count]; omega), toNat_one_count]

theorem toNat_count_sub_one {c : BitVec 9} {n : Nat} (h : c.toNat = n + 1) : (c - 1).toNat = n := by
  rw [BitVec.toNat_sub_of_le (by rw [BitVec.le_def, toNat_one_count]; omega), toNat_one_count, h, Nat.add_sub_cancel]

/-! ## Emptying the OPL -/

/-- Where `PQ_COUNT` counts the entries (R29), as many removals return them all, head first. -/
theorem runCommands_pqRemoveMin {s : State} (hcount : s.pqCount.toNat = s.opl.length) :
    ∃ t, runCommands (List.replicate s.opl.length .pqRemoveMin) s =
        some (t, s.opl.map fun e => respWord 0 e.payload e.weight) ∧ t.opl = [] ∧ t.pqCount = 0 := by
  generalize hopl : s.opl = l at hcount ⊢
  induction l generalizing s with
  | nil => exact ⟨s, rfl, hopl, BitVec.eq_of_toNat_eq hcount⟩
  | cons e rest ih =>
    have hne : s.pqCount ≠ 0 := fun h0 => by simp [h0] at hcount
    obtain ⟨t, hrun, hempty⟩ :=
      ih (s := State.withResponse { s with opl := rest, pqCount := s.pqCount - 1 } e.payload e.weight) rfl
        (toNat_count_sub_one hcount)
    exact ⟨t, runCommands_cons (execPqRemoveMin_of_cons hne hopl) rfl hrun, hempty⟩

/-- Settles O12: the invariant counts the entries (R29) and has them sorted (R33). -/
theorem drainReturnsTheEntriesInOrder : Obligations.DrainReturnsTheEntriesInOrder := by
  unfold Obligations.DrainReturnsTheEntriesInOrder
  intro s hs
  obtain ⟨t, hrun, hopl, hcount⟩ := runCommands_pqRemoveMin hs.count
  exact ⟨t, hrun, hopl, hcount, hs.sorted⟩

/-! ## Filling the OPL -/

/-- The entries after a run of insertions, first one first (R101). -/
def oplInsertAll (es l : List Entry) : List Entry := es.foldl (fun l e => oplInsert e l) l

theorem oplInsertAll_cons (e : Entry) (es l : List Entry) : oplInsertAll (e :: es) l = oplInsertAll es (oplInsert e l) := rfl

theorem oplInsertAll_sorted (es : List Entry) {l : List Entry} (h : oplSorted l) : oplSorted (oplInsertAll es l) := by
  induction es generalizing l with
  | nil => exact h
  | cons e es ih => exact ih (oplInsert_sorted e l h)

theorem oplInsertAll_perm (es l : List Entry) : (oplInsertAll es l).Perm (es.reverse ++ l) := by
  induction es generalizing l with
  | nil => exact .refl l
  | cons e es ih =>
    rw [oplInsertAll_cons, List.reverse_cons, List.append_assoc]
    exact (ih _).trans ((oplInsert_perm e l).append_left _)

theorem oplInsertAll_length (es l : List Entry) : (oplInsertAll es l).length = es.length + l.length := by
  rw [(oplInsertAll_perm es l).length_eq, List.length_append, List.length_reverse]

/-- Among the entries of one weight the new one comes first: those before its place are smaller (R101, R104). -/
theorem oplInsert_filter_weight (e : Entry) (l : List Entry) (w : BitVec 32) :
    ((oplInsert e l).filter fun x => x.weight = w) = (e :: l).filter fun x => x.weight = w := by
  obtain ⟨before, after, hl, hinsert, hlt, -⟩ := oplInsert_split e l
  rw [hinsert, hl]
  by_cases hw : e.weight = w
  · have hbefore : (before.filter fun x => x.weight = w) = [] :=
      List.filter_eq_nil_iff.mpr fun x hx hxw => (hlt x hx).ne (congrArg BitVec.toNat ((of_decide_eq_true hxw).trans hw.symm))
    simp [hw, hbefore]
  · simp [hw]

/-- Among the entries of one weight, the last one put in comes first (R104). -/
theorem oplInsertAll_filter_weight (es l : List Entry) (w : BitVec 32) :
    ((oplInsertAll es l).filter fun x => x.weight = w) = (es.reverse ++ l).filter fun x => x.weight = w := by
  induction es generalizing l with
  | nil => rfl
  | cons e es ih =>
    rw [oplInsertAll_cons, ih, List.filter_append, oplInsert_filter_weight, ← List.filter_append, List.reverse_cons,
      List.append_assoc, List.singleton_append]

/-- Insertions that fit the capacity all complete, and `PQ_COUNT` still counts the entries (R29, R101). -/
theorem runCommands_pqInsert (es : List Entry) {s : State} (hcount : s.pqCount.toNat = s.opl.length)
    (hfits : s.opl.length + es.length ≤ Config.pqCapacity) :
    ∃ t, runCommands (es.map fun e => .pqInsert e.payload e.weight) s = some (t, List.replicate es.length (respWord 0 0 0)) ∧
      t.opl = oplInsertAll es s.opl ∧ t.pqCount.toNat = t.opl.length := by
  induction es generalizing s with
  | nil => exact ⟨s, rfl, rfl, hcount⟩
  | cons e es ih =>
    rw [List.length_cons] at hfits
    have hroom : s.pqCount.toNat < Config.pqCapacity := by omega
    have hlength : (oplInsert e s.opl).length = s.opl.length + 1 := oplInsert_length e s.opl
    obtain ⟨t, hrun, hopl, htcount⟩ :=
      ih (s := State.withResponse { s with opl := oplInsert e s.opl, pqCount := s.pqCount + 1 } 0 0)
        ((toNat_count_add_one hroom).trans (by rw [hcount]; exact hlength.symm))
        (by rw [withResponse_opl, hlength]; omega)
    exact ⟨t, runCommands_cons (execPqInsert_of_room hroom.ne) rfl hrun, hopl, htcount⟩

/-- Settles O13: the insertions leave `oplInsertAll es []`, which the removals return head first. -/
theorem insertsThenDrainSortLastInFirstOut : Obligations.InsertsThenDrainSortLastInFirstOut := by
  unfold Obligations.InsertsThenDrainSortLastInFirstOut
  intro s es hopl hcount hlen
  obtain ⟨u, hinserts, huopl, hucount⟩ := runCommands_pqInsert es (s := s) (by rw [hcount, hopl]; rfl)
    (by rwa [hopl, List.length_nil, Nat.zero_add])
  obtain ⟨t, hdrain, htopl, htcount⟩ := runCommands_pqRemoveMin hucount
  rw [hopl] at huopl
  rw [huopl, oplInsertAll_length, List.length_nil, Nat.add_zero] at hdrain
  refine ⟨t, oplInsertAll es [], ?_, htopl, htcount, oplInsertAll_sorted es .nil, ?_, fun w => ?_⟩
  · rw [runCommands_append _ _ _ _ _ hinserts, hdrain]
    rfl
  · have hperm := oplInsertAll_perm es []
    rw [List.append_nil] at hperm
    exact hperm.trans es.reverse_perm
  · rw [oplInsertAll_filter_weight, List.append_nil, List.filter_reverse]

end Sys2Proof.Machine
end

section
/-! The BSC commands one at a time (R121 to R129, R134): the arm each takes, what that arm does, and its frame in every state that answers. -/

namespace Sys2Proof.Machine

/-- A command that comes down to raising a fault raises it and does nothing else (R211). -/
theorem raisesOnly_of_eq {r : Result} {k : FaultKind} {s : State} (h : r = raise k s) : raisesOnly r k s :=
  h ▸ raise_raisesOnly k s

/-! ## BS.OPEN -/

theorem execBsOpen_write {s : State} (hidle : s.bsMode = .idle) : execBsOpen 0 s = openWrite s := if_neg (not_not.mpr hidle)

theorem execBsOpen_read {s : State} (hidle : s.bsMode = .idle) : execBsOpen 1 s = openRead s := if_neg (not_not.mpr hidle)

theorem openRead_of_acceptable {s : State} (hok : s.storage.acceptable) :
    openRead s = .next (State.withResponse { s with
      bsLen := BitVec.ofNat 32 s.storage.declaredLen, bsRemain := BitVec.ofNat 32 s.storage.declaredLen, bsMode := .read } 0 0) := by
  obtain ⟨hheader, hpayload⟩ := hok
  rw [openRead, if_neg (Nat.not_lt.mpr hheader), Storage.readHeader_of_le hheader]
  exact if_neg (Nat.not_lt.mpr hpayload)

theorem openRead_of_not_acceptable {s : State} (hbad : ¬ s.storage.acceptable) : openRead s = raise .corruptInputError s := by
  by_cases hheader : Config.hdr ≤ s.storage.fileSize
  · rw [openRead, if_neg (Nat.not_lt.mpr hheader), Storage.readHeader_of_le hheader]
    exact if_pos (Nat.lt_of_not_le fun hpayload => hbad ⟨hheader, hpayload⟩)
  · exact if_pos (Nat.lt_of_not_le hheader)

/-- Any declared length fits `BS_LEN` (R25, R50). -/
theorem Storage.toNat_declaredLen (st : Storage) : (BitVec.ofNat 32 st.declaredLen).toNat = st.declaredLen := by
  rw [BitVec.toNat_ofNat, Nat.mod_eq_of_lt st.declaredLen_lt]

/-- Settles O18: the write arm's Storage has four bytes and all of them are 0. -/
theorem openWriteStartsAnEmptyFile : Obligations.OpenWriteStartsAnEmptyFile := by
  unfold Obligations.OpenWriteStartsAnEmptyFile
  intro s hidle
  obtain ⟨st, hopen, -, hsize, hzero⟩ := openWrite_spec s
  refine ⟨_, ⟨(execBsOpen_write hidle).trans hopen, rfl⟩, ?_, hsize, rfl, rfl, rfl, rfl, rfl, rfl, ⟨rfl, rfl⟩, rfl, rfl⟩
  have hbytes : st.bytes = List.replicate 4 0 := by
    rw [Storage.bytes, hsize, funext hzero, List.map_const', List.length_range]
  exact hbytes

/-- Settles O19, by whether the Storage is acceptable. -/
theorem openReadChecksTheHeader : Obligations.OpenReadChecksTheHeader := by
  unfold Obligations.OpenReadChecksTheHeader
  intro s hidle
  constructor
  · intro hok
    exact ⟨_, ⟨(execBsOpen_read hidle).trans (openRead_of_acceptable hok), rfl⟩, rfl, s.storage.toNat_declaredLen,
      s.storage.toNat_declaredLen, rfl, rfl, rfl, rfl, ⟨rfl, rfl⟩, rfl, rfl⟩
  · intro hbad
    exact raisesOnly_of_eq ((execBsOpen_read hidle).trans (openRead_of_not_acceptable hbad))

/-- Settles O29, by the effect of the command: a fault, or one of the two openings from Idle. -/
theorem openFrame : Obligations.OpenFrame := by
  unfold Obligations.OpenFrame
  intro s t mode h
  cases exec_effect h with
  | raised | answered =>
    exact ⟨fun _ => ⟨⟨rfl, fun _ => rfl⟩, rfl, rfl, rfl⟩, fun _ => ⟨rfl, rfl⟩, fun _ => rfl, ⟨rfl, rfl⟩, rfl⟩
  | openedWrite st hidle =>
    exact ⟨fun hother => absurd ⟨rfl, hidle⟩ hother, fun _ => ⟨rfl, rfl⟩, absurd hidle, ⟨rfl, rfl⟩, rfl⟩
  | openedRead hidle =>
    exact ⟨fun _ => ⟨⟨rfl, fun _ => rfl⟩, rfl, rfl, rfl⟩, fun hother => absurd ⟨rfl, hidle⟩ hother, absurd hidle, ⟨rfl, rfl⟩, rfl⟩

/-! ## BS.WRITE -/

/-- A count of at most 32 passes the first test of BS.WRITE and BS.READ (R81). -/
theorem bitCountLegal_of_le {n : BitVec 8} (hn : n.toNat ≤ 32) : ¬ bitCountLegal n = false := by
  simp [bitCountLegal, hn]

theorem execBsWrite_of_mode_ne {n : BitVec 8} {s : State} (v : BitVec 32) (hn : n.toNat ≤ 32) (hmode : s.bsMode ≠ .write) :
    execBsWrite n v s = raise .protocolError s := by
  rw [execBsWrite, if_neg (bitCountLegal_of_le hn), if_pos hmode]

/-- A total that does not fit the Storage does not fit the header either, so one limit decides (R5, R124). -/
theorem execBsWrite_of_over {n : BitVec 8} {s : State} (v : BitVec 32) (hn : n.toNat ≤ 32) (hmode : s.bsMode = .write)
    (hover : Config.maxTotal < s.bsTotal.toNat + n.toNat) : execBsWrite n v s = raise .capacityError s := by
  rw [execBsWrite, if_neg (bitCountLegal_of_le hn), if_neg (not_not.mpr hmode), if_pos hover]

/-- Settles O20: the tests of BS.WRITE in their order, and what appending does after them. -/
theorem writeAppendsTheLowOrderBits : Obligations.WriteAppendsTheLowOrderBits := by
  unfold Obligations.WriteAppendsTheLowOrderBits
  intro s n value hn
  refine ⟨decode_encode (i := .bsWrite n value) (decide_eq_true hn), fun hmode => ?_, fun hmode hover => ?_, fun hmode hover => ?_,
    fun hs hmode htotal _ => ?_⟩
  · exact raisesOnly_of_eq (execBsWrite_of_mode_ne value hn hmode)
  · exact raisesOnly_of_eq (execBsWrite_of_over value hn hmode hover)
  · exact raisesOnly_of_eq (execBsWrite_of_over value hn hmode (Nat.lt_of_not_le fun hle => Nat.not_lt.mpr (fits_storage hle) hover))
  · obtain ⟨t, happend, hreply, htot, hnacc, hacc, -, hbits, -, hsize, hbytes, hm, hframe⟩ :=
      appendBits_spec n.toNat value s hs hmode hn htotal
    exact ⟨t, ⟨(execBsWrite_of_fits value hmode hn htotal).trans happend, hreply⟩, htot, hnacc, hacc, hbits, hsize, hbytes,
      hm.trans hmode, hframe⟩

/-- Appending stores at the offsets of the flushed bytes alone (R134). -/
theorem appendBits_byte_other {n : Nat} {v : BitVec 32} {s t : State} (h : appendBits n v s = .next t) {a : Nat}
    (ha : a < Config.hdr + s.bsTotal.toNat / 8 ∨ Config.hdr + s.bsTotal.toNat / 8 + (s.bsNacc.toNat + n) / 8 ≤ a) :
    t.storage.byte a = s.storage.byte a := by
  unfold appendBits at h
  split at h
  · cases h
  · next st buf hflush =>
    cases h
    exact flushBytes_other hflush ha

/-- Settles O21, by the effect of the command: a fault, or an append. -/
theorem writeFrame : Obligations.WriteFrame := by
  unfold Obligations.WriteFrame
  intro s t n value h
  cases exec_effect h with
  | raised | answered => exact ⟨fun _ _ => rfl, rfl, rfl, rfl, ⟨rfl, rfl⟩, rfl⟩
  | appended n v st acc nacc total hlegal hmode htotal hsize happend =>
    exact ⟨fun a ha => appendBits_byte_other happend ha, rfl, rfl, rfl, ⟨rfl, rfl⟩, rfl⟩

/-! ## BS.READ, BS.MORE and RDREG -/

theorem execBsRead_of_mode_ne {n : BitVec 8} {s : State} (hn : n.toNat ≤ 32) (hmode : s.bsMode ≠ .read) :
    execBsRead n s = raise .protocolError s := by
  rw [execBsRead, if_neg (bitCountLegal_of_le hn), if_pos hmode]

theorem execBsRead_of_remain_lt {n : BitVec 8} {s : State} (hn : n.toNat ≤ 32) (hmode : s.bsMode = .read)
    (hlt : s.bsRemain.toNat < n.toNat) : execBsRead n s = raise .truncatedStreamError s := by
  rw [execBsRead, if_neg (bitCountLegal_of_le hn), if_neg (not_not.mpr hmode), if_pos hlt]

/-- Past the declared-count test only the Storage's length decides (R125, R210). -/
theorem execBsRead_of_remain_le {n : BitVec 8} {s : State} (hn : n.toNat ≤ 32) (hmode : s.bsMode = .read)
    (hle : n.toNat ≤ s.bsRemain.toNat) (hremain : s.bsRemain.toNat ≤ s.bsLen.toNat) :
    execBsRead n s =
      if s.storage.fileSize < Config.hdr + ceil8 (s.bsLen.toNat - s.bsRemain.toNat + n.toNat) then raise .truncatedStreamError s
      else takeBits n.toNat s := by
  rw [execBsRead, if_neg (bitCountLegal_of_le hn), if_neg (not_not.mpr hmode), if_neg (Nat.not_lt.mpr hle),
    if_neg (Nat.not_lt.mpr hremain)]

/-- What BS.READ does when its bits are declared and lie in the Storage (R125). -/
theorem execBsRead_of_fits {n : BitVec 8} {s : State} (hn : n.toNat ≤ 32) (hmode : s.bsMode = .read)
    (hle : n.toNat ≤ s.bsRemain.toNat) (hremain : s.bsRemain.toNat ≤ s.bsLen.toNat)
    (hsize : Config.hdr + ceil8 (s.bsLen.toNat - s.bsRemain.toNat + n.toNat) ≤ s.storage.fileSize) :
    execBsRead n s = .next (State.withResponse { s with bsRemain := BitVec.ofNat 32 (s.bsRemain.toNat - n.toNat) } 0
      (BitVec.ofNat 32 (bitsValue (s.storage.payloadBits (s.bsLen.toNat - s.bsRemain.toNat) n.toNat)))) := by
  rw [execBsRead_of_remain_le hn hmode hle hremain, if_neg (Nat.not_lt.mpr hsize), takeBits_spec n.toNat s hsize]

theorem toNat_remain_sub (r : BitVec 32) (n : Nat) : (BitVec.ofNat 32 (r.toNat - n)).toNat = r.toNat - n := by
  rw [BitVec.toNat_ofNat, Nat.mod_eq_of_lt ((Nat.sub_le _ _).trans_lt r.isLt)]

/-- Settles O22: the tests of BS.READ in their order, and what taking does after them. -/
theorem readReturnsTheNextBits : Obligations.ReadReturnsTheNextBits := by
  unfold Obligations.ReadReturnsTheNextBits
  intro s n hn
  refine ⟨decode_encode (i := .bsRead n) (decide_eq_true hn), fun hmode => ?_, fun hmode hlt => ?_, fun hmode hle hremain hshort => ?_,
    fun hmode hle hremain hsize => ?_⟩
  · exact raisesOnly_of_eq (execBsRead_of_mode_ne hn hmode)
  · exact raisesOnly_of_eq (execBsRead_of_remain_lt hn hmode hlt)
  · exact raisesOnly_of_eq ((execBsRead_of_remain_le hn hmode hle hremain).trans (if_pos hshort))
  · exact ⟨_, ⟨execBsRead_of_fits hn hmode hle hremain hsize, rfl⟩, toNat_remain_sub _ _, hmode, rfl, rfl, rfl, rfl, rfl, ⟨rfl, rfl⟩,
      rfl, rfl⟩

theorem execBsMore_of_mode_ne {s : State} (hmode : s.bsMode ≠ .read) : execBsMore s = raise .protocolError s := if_pos hmode

theorem execBsMore_of_read {s : State} (hmode : s.bsMode = .read) :
    execBsMore s = .next (s.withResponse 0 (if 0 < s.bsRemain.toNat then 1 else 0)) := by
  rw [execBsMore, if_neg (not_not.mpr hmode)]
  split
  · exact respond_eq 0 1 s
  · exact respond_eq 0 0 s

/-- Settles O24, by whether the mode is Read. -/
theorem moreReportsWhetherBitsRemain : Obligations.MoreReportsWhetherBitsRemain := by
  unfold Obligations.MoreReportsWhetherBitsRemain
  refine ⟨decode_encode (i := .bsMore) rfl, fun s => ⟨fun hmode => raisesOnly_of_eq (execBsMore_of_mode_ne hmode), fun hmode => ?_⟩⟩
  exact ⟨_, ⟨execBsMore_of_read hmode, rfl⟩, ⟨rfl, rfl, rfl, rfl, rfl, rfl⟩, ⟨rfl, rfl⟩, rfl, rfl, rfl⟩

/-- Settles O30, by the effect of the command: a fault, an answer, or bits taken, of which `BS_REMAIN` is all that is written. -/
theorem readingCommandsFrame : Obligations.ReadingCommandsFrame := by
  unfold Obligations.ReadingCommandsFrame
  intro i s t hi h
  cases exec_effect h with
  | raised | answered => exact ⟨⟨rfl, fun _ => rfl⟩, ⟨rfl, rfl⟩, rfl, rfl, rfl, rfl, rfl, rfl, fun _ => rfl⟩
  | took n =>
    exact ⟨⟨rfl, fun _ => rfl⟩, ⟨rfl, rfl⟩, rfl, rfl, rfl, rfl, rfl, rfl, fun hother => absurd rfl (hother n)⟩
  | _ => simp at hi

/-! ## BS.CLOSE -/

theorem execBsClose_of_write {s : State} (hmode : s.bsMode = .write) : execBsClose s = closeWrite s := by
  rw [execBsClose, hmode]

theorem execBsClose_of_read {s : State} (hmode : s.bsMode = .read) : execBsClose s = closeRead s := by
  rw [execBsClose, hmode]

/-- The header bytes of a length are its base-256 digits, most significant first (R50). -/
theorem headerBytes_getD_toNat (len : Nat) {j : Nat} (hj : j < 4) :
    ((headerBytes len).getD j 0).toNat = len / 2 ^ (8 * (3 - j)) % 256 := by
  obtain rfl | rfl | rfl | rfl : j = 0 ∨ j = 1 ∨ j = 2 ∨ j = 3 := by omega
  all_goals simp [headerBytes]

/-- Settles O25: what the write arm does, with the header's bytes as digits of `BS_TOTAL`. -/
theorem closeWritePadsAndWritesTheHeader : Obligations.CloseWritePadsAndWritesTheHeader := by
  unfold Obligations.CloseWritePadsAndWritesTheHeader
  intro s hs hmode
  obtain ⟨st, hclose, -, hheader, hpad, hother, hsize⟩ := closeWrite_spec s hs hmode
  refine ⟨_, ⟨(execBsClose_of_write hmode).trans hclose, rfl⟩, fun j hj => ?_, hpad, hother, hsize, rfl, rfl, rfl, rfl, rfl, rfl,
    ⟨rfl, rfl⟩, rfl, rfl⟩
  rw [withResponse_storage, hheader j hj, headerBytes_getD_toNat _ hj]

/-- Settles O27: the read arm writes the mode alone. -/
theorem closeReadOnlyReleases : Obligations.CloseReadOnlyReleases := by
  unfold Obligations.CloseReadOnlyReleases
  intro s hmode
  have hclose : exec .bsClose s = .next (State.withResponse { s with bsMode := .idle } 0 0) := execBsClose_of_read hmode
  exact ⟨_, ⟨hclose, rfl⟩, rfl, rfl, rfl, rfl, rfl, rfl, rfl, ⟨rfl, rfl⟩, rfl, rfl⟩

/-- The write arm stores at the pad byte's offset, when a bit is pending, and at the header's (R128, R134). -/
theorem closeWrite_byte_other {s t : State} (h : closeWrite s = .next t) {a : Nat} (hheader : 4 ≤ a)
    (hpad : 0 < s.bsNacc.toNat → a ≠ 4 + s.bsTotal.toNat / 8) : t.storage.byte a = s.storage.byte a := by
  unfold closeWrite at h
  split at h
  · cases h
  next st hpadded =>
  split at h
  · cases h
  next st' hheaded =>
  cases h
  have hafter : st'.byte a = st.byte a := Storage.memWriteRun_other hheaded (.inr (by simpa using hheader))
  refine hafter.trans (Storage.memWriteRun_other hpadded ?_)
  unfold padBytes
  split
  next hpending =>
    have hne := hpad hpending
    simp only [Config.hdr, List.length_singleton]
    omega
  next => exact Nat.lt_or_ge _ _

/-- Settles O28, by the effect of the command: a fault, or one of the two closings. -/
theorem closeFrame : Obligations.CloseFrame := by
  unfold Obligations.CloseFrame
  intro s t h
  cases exec_effect h with
  | raised | answered | closedRead => exact ⟨fun _ _ => rfl, rfl, rfl, rfl, ⟨rfl, rfl⟩, rfl⟩
  | closedWrite st hmode hsize hclose =>
    refine ⟨fun a ha => closeWrite_byte_other hclose ?_ fun hpending heq => ?_, rfl, rfl, rfl, ⟨rfl, rfl⟩, rfl⟩
    · exact Nat.le_of_not_lt fun hlt => ha ⟨hmode, .inl hlt⟩
    · exact ha ⟨hmode, .inr ⟨hpending, heq⟩⟩

end Sys2Proof.Machine
end

section
/-! The BitFile (R79, R80): what a closed write session leaves is one (R128, R132), a read session returns its bits (R133), and one cut short
is no acceptable Storage (R123, R181). -/

namespace Sys2Proof.Machine

/-! ## A Storage that holds a BitFile -/

/-- A Storage holds `BitFile(b)` when its length, its header and its payload bits are those of `b` (R79). -/
theorem Storage.bytes_eq_bitFile {st : Storage} {b : List Bool} (hsize : st.fileSize = Config.hdr + ceil8 b.length)
    (hheader : ∀ j < 4, st.byte j = (headerBytes b.length).getD j 0)
    (hpayload : ∀ i < 8 * ceil8 b.length, st.payloadBit i = padBit b i) : st.bytes = bitFile b := by
  refine Storage.bytes_eq (hsize.trans (bitFile_length b).symm) fun a ha => ?_
  rw [bitFile]
  by_cases hlt : a < 4
  · rw [List.getD_append _ _ _ _ hlt, hheader a hlt]
  · obtain ⟨k, rfl⟩ := Nat.exists_eq_add_of_le (Nat.le_of_not_lt hlt)
    have hk : k < ceil8 b.length := by
      simp only [Config.hdr] at hsize
      omega
    have hbits : bitsOf (st.byte (4 + k)).toNat 8 = (List.range 8).map fun t => padBit b (8 * k + t) := by
      rw [← st.payloadBits_byte k, Storage.payloadBits]
      refine List.map_congr_left fun t ht => hpayload _ ?_
      rw [List.mem_range] at ht
      omega
    rw [List.getD_append_right _ _ _ _ (by simp), byte_eq_payloadByte hbits]
    simp [hk]

theorem Storage.fileSize_bitFile {st : Storage} {b : List Bool} (hs : st.bytes = bitFile b) :
    st.fileSize = Config.hdr + ceil8 b.length := by
  rw [← st.bytes_length, hs, bitFile_length]

/-- BitFile of bits the header can declare is canonical (R79, R80). -/
theorem Storage.canonical_bitFile {st : Storage} {b : List Bool} (hs : st.bytes = bitFile b) (hb : b.length < 2 ^ 32) :
    st.canonical := by
  have hsize := Storage.fileSize_bitFile hs
  have hlen := Storage.declaredLen_bitFile hs hb
  refine ⟨⟨?_, ?_⟩, by rw [hsize, hlen], fun i hi hpad => ?_⟩
  · rw [hsize]
    exact Nat.le_add_right _ _
  · rw [hsize, hlen, Nat.add_sub_cancel_left]
  · rw [hlen] at hi hpad
    rw [Storage.payloadBit_bitFile hs hi, padBit, List.getD_eq_default _ _ hpad]

/-! ## Closing a write session -/

/-- Below the last full byte the appended bits are the payload's (R39). -/
theorem padBit_appended_flushed {s : State} {i : Nat} (hi : i < 8 * (s.bsTotal.toNat / 8)) :
    padBit s.appended i = s.storage.payloadBit i := by
  rw [padBit, State.appended, List.getD_append _ _ _ _ (by simpa using hi), List.getD_eq_getElem _ _ (by simpa using hi),
    Storage.payloadBits_getElem, Nat.zero_add]

/-- After the last full byte they are the pending bits, and the pad bits 0 (R39, R79). -/
theorem padBit_appended_pending (s : State) (r : Nat) :
    padBit s.appended (8 * (s.bsTotal.toNat / 8) + r) = (bitsOf s.bsAcc.toNat s.bsNacc.toNat).getD r false := by
  rw [padBit, State.appended, List.getD_append_right _ _ _ _ (by simp), Storage.payloadBits_length, Nat.add_sub_cancel_left]

/-- The padded byte of BS.CLOSE holds the pending bits high and zeros low (R128, C1). -/
theorem testBit_padded (acc : Nat) {k r : Nat} (hk : k < 8) (hr : r < 8) :
    (acc * 2 ^ (8 - k)).testBit (7 - r) = (bitsOf acc k).getD r false := by
  rw [Nat.testBit_mul_two_pow]
  by_cases hlt : r < k
  · rw [List.getD_eq_getElem _ _ (by simpa using hlt), bitsOf_getElem, show 7 - r - (8 - k) = k - 1 - r by omega]
    simp [show 8 - k ≤ 7 - r by omega]
  · rw [List.getD_eq_default _ _ (by simpa using hlt)]
    simp [show ¬ 8 - k ≤ 7 - r by omega]

/-- Closing a write session completes and leaves BitFile of the bits appended; `BS_TOTAL` is their number (R128, R132). -/
theorem execBsClose_bitFile {s : State} (hs : s.Inv) (hmode : s.bsMode = .write) :
    ∃ t, execBsClose s = .next t ∧ t.reply = .response (respWord 0 0 0) ∧ t.bsMode = .idle ∧ t.bsTotal = s.bsTotal ∧
      s.appended.length = s.bsTotal.toNat ∧ t.storage.bytes = bitFile s.appended := by
  obtain ⟨st, hclose, -, hheader, hpad, hother, hsize⟩ := closeWrite_spec s hs hmode
  have hwrite := hs.mode
  simp only [modeInv, hmode] at hwrite
  obtain ⟨hnacc, -, -⟩ := hwrite
  have hlen := s.appended_length hnacc
  refine ⟨_, (execBsClose_of_write hmode).trans hclose, rfl, rfl, rfl, hlen, ?_⟩
  rw [← hlen] at hheader
  refine Storage.bytes_eq_bitFile (hsize.trans (by rw [hlen])) hheader fun i hi => ?_
  rw [hlen, ceil8] at hi
  by_cases hflushed : i < 8 * (s.bsTotal.toNat / 8)
  · rw [padBit_appended_flushed hflushed, Storage.payloadBit_eq, Storage.payloadBit_eq]
    congr 2
    refine hother _ (Nat.le_add_right _ _) fun _ => ?_
    simp only [Config.hdr]
    omega
  · obtain ⟨r, rfl⟩ := Nat.exists_eq_add_of_le (Nat.le_of_not_lt hflushed)
    have hr : r < 8 := by omega
    have hbyte : (8 * (s.bsTotal.toNat / 8) + r) / 8 = s.bsTotal.toNat / 8 := by omega
    have hbit : (8 * (s.bsTotal.toNat / 8) + r) % 8 = r := by omega
    have hpending : 0 < s.bsNacc.toNat := by omega
    rw [padBit_appended_pending, Storage.payloadBit_eq, hbyte, hbit]
    exact (congrArg (Nat.testBit · (7 - r)) (hpad hpending)).trans (testBit_padded _ s.bsNacc.isLt hr)

/-- Settles O26: the closing's BitFile is canonical because `BS_TOTAL` fits the header. -/
theorem closeLeavesTheBitFileOfTheSession : Obligations.CloseLeavesTheBitFileOfTheSession := by
  unfold Obligations.CloseLeavesTheBitFileOfTheSession
  intro s hs hmode
  obtain ⟨t, hclose, -, -, -, hlen, hbytes⟩ := execBsClose_bitFile hs hmode
  exact ⟨t, hclose, hbytes, Storage.canonical_bitFile hbytes (hlen ▸ s.bsTotal.isLt), hlen⟩

/-! ## A whole write session -/

/-- Opening in write mode starts a session that has appended nothing (R122). -/
theorem execBsOpen_writing {s : State} (hidle : s.bsMode = .idle) :
    ∃ t, execBsOpen 0 s = .next t ∧ t.reply = .response (respWord 0 0 0) ∧ t.bsMode = .write ∧ t.bsTotal = 0 ∧ t.appended = [] := by
  obtain ⟨st, hopen, -⟩ := openWrite_spec s
  exact ⟨_, (execBsOpen_write hidle).trans hopen, rfl, rfl, rfl, by simp [State.appended, Storage.payloadBits]⟩

/-- A run between a first and a last command. -/
theorem runCommands_between {i j : Instr} {is : List Instr} {s o u t : State} {w w' : RespWord} {rs : List RespWord}
    (hfirst : exec i s = .next o) (hw : o.reply = .response w) (hrun : runCommands is o = some (u, rs))
    (hlast : exec j u = .next t) (hw' : t.reply = .response w') :
    runCommands (i :: is ++ [j]) s = some (t, w :: rs ++ [w']) := by
  refine runCommands_cons hfirst hw ?_
  rw [List.append_eq, runCommands_append _ _ _ _ _ hrun, runCommands_cons hlast hw' rfl]
  rfl

/-- Settles O45: the opening leaves nothing appended, the writes append their bits in order, the closing leaves their BitFile. -/
theorem writeSessionLeavesTheBitFile : Obligations.WriteSessionLeavesTheBitFile := by
  unfold Obligations.WriteSessionLeavesTheBitFile
  intro s ws hs hidle hn htotal
  obtain ⟨o, hopen, horeply, homode, hototal, hobits⟩ := execBsOpen_writing hidle
  obtain ⟨u, rs, hwrites, hdone, hinv, hmode, htot, hbits⟩ :=
    runCommands_bsWrite ws ((execBsOpen_effect hopen).inv hs) homode hn (by simpa [hototal] using htotal)
  obtain ⟨t, hclose, hreply, htidle, httot, hlen, hbytes⟩ := execBsClose_bitFile hinv hmode
  rw [hobits, List.nil_append] at hbits
  have hsum : u.bsTotal.toNat = (ws.map fun p => p.1.toNat).sum := by simpa [hototal] using htot
  have hfits : u.appended.length < 2 ^ 32 := hlen ▸ u.bsTotal.isLt
  refine ⟨t, _, runCommands_between hopen horeply hwrites hclose hreply,
    ⟨htidle, ?_⟩, by rw [httot, hsum], ?_, hbits ▸ hbytes, Storage.canonical_bitFile hbytes hfits⟩
  · have hlast : allComplete [respWord 0 0 0] := List.forall_mem_singleton.mpr (respStatus_respWord 0 0 0)
    exact List.forall_mem_cons.mpr ⟨respStatus_respWord 0 0 0, List.forall_mem_append.mpr ⟨hdone, hlast⟩⟩
  · rw [Storage.declaredLen_bitFile hbytes hfits, hlen, hsum]

/-! ## A whole read session -/

/-- A read session over `BitFile(b)` with `c` of its bits read (R40, R133). -/
structure Reading (b : List Bool) (c : Nat) (s : State) : Prop where
  mode : s.bsMode = .read
  bytes : s.storage.bytes = bitFile b
  len : s.bsLen.toNat = b.length
  remain : s.bsRemain.toNat = b.length - c

/-- Opening a Storage that holds `BitFile(b)` starts to read it (R123). -/
theorem execBsOpen_reading {s : State} {b : List Bool} (hidle : s.bsMode = .idle) (hb : b.length ≤ 4294967295)
    (hbytes : s.storage.bytes = bitFile b) :
    ∃ t, execBsOpen 1 s = .next t ∧ t.reply = .response (respWord 0 0 0) ∧ Reading b 0 t := by
  have hfits : b.length < 2 ^ 32 := Nat.lt_succ_of_le hb
  have hlen := s.storage.toNat_declaredLen.trans (Storage.declaredLen_bitFile hbytes hfits)
  exact ⟨_, (execBsOpen_read hidle).trans (openRead_of_acceptable (Storage.canonical_bitFile hbytes hfits).1), rfl,
    ⟨rfl, hbytes, hlen, hlen⟩⟩

/-- BS.READ of `n` bits that are left returns the next slice of `b` and reads on from behind it (R125, R133). -/
theorem Reading.execBsRead_slice {b : List Bool} {c : Nat} {s : State} (h : Reading b c s) {n : BitVec 8} (hn : n.toNat ≤ 32)
    (hfits : c + n.toNat ≤ b.length) :
    ∃ t, execBsRead n s = .next t ∧
      t.reply = .response (respWord 0 0 (BitVec.ofNat 32 (bitsValue ((b.drop c).take n.toNat)))) ∧ Reading b (c + n.toNat) t := by
  obtain ⟨hmode, hbytes, hlen, hremain⟩ := h
  have hpos : s.bsLen.toNat - s.bsRemain.toNat = c := by omega
  have hsize : Config.hdr + ceil8 (c + n.toNat) ≤ s.storage.fileSize := by
    rw [Storage.fileSize_bitFile hbytes]
    simp only [ceil8]
    omega
  rw [← hpos] at hsize
  refine ⟨_, execBsRead_of_fits hn hmode (by omega) (by omega) hsize, ?_, hmode, hbytes, hlen, ?_⟩
  · rw [withResponse_reply, hpos, Storage.payloadBits_bitFile hbytes hfits]
  · rw [withResponse_bsRemain, toNat_remain_sub, hremain, Nat.sub_sub]

/-- BS.READ commands whose counts fit the bits left return consecutive slices (R133). -/
theorem Reading.runCommands_bsRead {b : List Bool} (ns : List (BitVec 8)) {c : Nat} {s : State} (h : Reading b c s)
    (hn : ∀ n ∈ ns, n.toNat ≤ 32) (hfits : c + (ns.map fun n => n.toNat).sum ≤ b.length) :
    ∃ t rs, runCommands (ns.map Instr.bsRead) s = some (t, rs) ∧ Reading b (c + (ns.map fun n => n.toNat).sum) t ∧
      rs.length = ns.length ∧ ∀ k < ns.length, rs.getD k 0 = respWord 0 0 (BitVec.ofNat 32 (bitsValue
        ((b.drop (c + ((ns.take k).map fun n => n.toNat).sum)).take (ns.getD k 0).toNat))) := by
  induction ns generalizing c s with
  | nil => exact ⟨s, [], rfl, h, rfl, nofun⟩
  | cons n ns ih =>
    obtain ⟨hn0, hns⟩ := List.forall_mem_cons.mp hn
    rw [List.map_cons, List.sum_cons, ← Nat.add_assoc] at hfits
    obtain ⟨u, hread, hreply, hu⟩ := h.execBsRead_slice hn0 ((Nat.le_add_right _ _).trans hfits)
    obtain ⟨t, rs, hrun, ht, hcount, hslices⟩ := ih hu hns hfits
    refine ⟨t, _, runCommands_cons hread hreply hrun, ?_, congrArg (· + 1) hcount, fun k hk => ?_⟩
    · rwa [List.map_cons, List.sum_cons, ← Nat.add_assoc]
    · cases k with
      | zero => rfl
      | succ k =>
        rw [List.getD_cons_succ, List.getD_cons_succ, hslices k (Nat.lt_of_succ_lt_succ hk), List.take_succ_cons, List.map_cons,
          List.sum_cons, Nat.add_assoc]

/-- Settles O46: the opening stands at bit 0, each read moves on by its count, and BS.MORE tests what is left. -/
theorem readSessionReturnsTheSlices : Obligations.ReadSessionReturnsTheSlices := by
  unfold Obligations.ReadSessionReturnsTheSlices
  intro s b ns hidle hb hbytes hn hfits
  obtain ⟨u, hopen, hreply, hu⟩ := execBsOpen_reading hidle hb hbytes
  obtain ⟨t, rs, hreads, ht, hcount, hslices⟩ := hu.runCommands_bsRead ns hn (by rwa [Nat.zero_add])
  simp only [Nat.zero_add] at ht hslices
  obtain ⟨hmode, -, hlen, hremain⟩ := ht
  have hmore := execBsMore_of_read hmode
  simp only [hremain, Nat.sub_pos_iff_lt] at hmore
  exact ⟨_, rs, _, runCommands_between hopen hreply hreads hmore rfl, hlen, hremain, rfl, hcount, hslices⟩

/-! ## A truncated payload -/

/-- A BitFile cut inside its payload keeps its header (R50). -/
theorem Storage.declaredLen_take_bitFile {st : Storage} {b : List Bool} {n : Nat} (hs : st.bytes = (bitFile b).take n)
    (hn : 4 ≤ n) (hsize : st.fileSize = n) (hb : b.length < 2 ^ 32) : st.declaredLen = b.length := by
  refine Storage.declaredLen_of_header hb fun j hj => ?_
  rw [← Storage.bytes_getD _ _ (by omega), hs, List.getD_eq_getElem?_getD, List.getElem?_take_of_lt (by omega),
    ← List.getD_eq_getElem?_getD, bitFile, List.getD_append _ _ _ _ hj]

/-- Settles O55: the header still declares all of `b`, for which the bytes left are too few. -/
theorem truncatedPayloadIsDetected : Obligations.TruncatedPayloadIsDetected := by
  unfold Obligations.TruncatedPayloadIsDetected
  intro s b n hidle hb hn hlt hbytes
  have hsize : s.storage.fileSize = n := by rw [← s.storage.bytes_length, hbytes, List.length_take_of_le hlt.le]
  have hlen := Storage.declaredLen_take_bitFile hbytes hn hsize (Nat.lt_succ_of_le hb)
  refine raisesOnly_of_eq ((execBsOpen_read hidle).trans (openRead_of_not_acceptable ?_))
  rintro ⟨-, hpayload⟩
  rw [bitFile_length] at hlt
  rw [hsize, hlen] at hpayload
  simp only [Config.hdr] at hlt hpayload
  omega

end Sys2Proof.Machine
end

section
/-! A whole encode (R168, R174): the Tree Builder keeps the block's invariant, and the Encoder is a write session whose bits are the codes of the
input's symbols (R131, R181). -/

namespace Sys2Proof.Client

open Sys2Proof.Machine

/-! ## The invariant along the client's calls -/

/-- A call is one step of the block, so it keeps the invariant. -/
theorem call_inv {i : Instr} {s t : State} {w : RespWord} (hs : s.Inv) (h : call i s = .done w t) : t.Inv := by
  unfold call at h
  split at h
  · next u hstep =>
    have hu : u.Inv := everyStepKeepsTheInvariant _ u (hs.withMoves _) hstep
    split at h
    · split at h
      · cases h; exact hu
      · cases h
    · cases h
    · cases h
  · cases h
  · cases h

theorem emptyIsInvariant_done {α : Type} {r : Ran α} {a : α} {t : State} (h : r.emptyIsInvariant = .done a t) : r = .done a t := by
  unfold Ran.emptyIsInvariant at h
  split at h
  · cases h
  · exact h

theorem removeNode_inv {s t : State} {p : Nat × Nat} (hs : s.Inv) (h : removeNode s = .done p t) : t.Inv := by
  obtain ⟨w, u, hcall, hdone⟩ := andThen_done h
  cases hdone
  exact call_inv hs (emptyIsInvariant_done hcall)

theorem insertLeaves_inv {es : List FreqEntry} {a a' : Arena} {s t : State} (hs : s.Inv) (h : insertLeaves es a s = .done a' t) :
    t.Inv := by
  induction es generalizing a s with
  | nil => cases h; exact hs
  | cons e es ih =>
    obtain ⟨w, u, hcall, hrest⟩ := andThen_done h
    exact ih (call_inv hs hcall) hrest

theorem mergeLoop_inv {fuel n : Nat} {a a' : Arena} {s t : State} (hs : s.Inv) (h : mergeLoop fuel n a s = .done a' t) : t.Inv := by
  induction fuel generalizing n a s with
  | zero => cases h
  | succ fuel ih =>
    obtain ⟨c, s1, hsize, h⟩ := andThen_done h
    have h1 := call_inv hs hsize
    split at h
    · cases h; exact h1
    · obtain ⟨pA, s2, hfirst, h⟩ := andThen_done h
      obtain ⟨pB, s3, hsecond, h⟩ := andThen_done h
      have h3 := removeNode_inv (removeNode_inv h1 hfirst) hsecond
      split at h
      · cases h
      · obtain ⟨w, s4, hinsert, h⟩ := andThen_done h
        exact ih (call_inv h3 hinsert) h

theorem buildTree_inv {freqs : List FreqEntry} {root : Tree} {s t : State} (hs : s.Inv) (h : buildTree freqs s = .done root t) :
    t.Inv := by
  obtain ⟨leaves, s1, hinsert, h⟩ := andThen_done h
  obtain ⟨a, s2, hmerge, h⟩ := andThen_done h
  obtain ⟨p, s3, hremove, h⟩ := andThen_done h
  cases h
  exact removeNode_inv (mergeLoop_inv (insertLeaves_inv hs hinsert) hmerge) hremove

/-! ## The Encoder's session -/

/-- A call of a well-formed command that is done ran the command without a fault. -/
theorem call_exec {i : Instr} {s t : State} {w : RespWord} (hi : i.wf = true) (h : call i s = .done w t) :
    exec i s = .next t ∧ t.reply.faultless := by
  obtain ⟨hexec, hreply, hstatus⟩ := call_done (decode_encode hi) h
  exact ⟨hexec, (HostReply.faultless_iff hreply).mpr hstatus⟩

/-- An open write session that meets the invariant and has appended these bits (R39). -/
structure Writing (b : List Bool) (s : State) : Prop where
  inv : s.Inv
  mode : s.bsMode = .write
  bits : s.appended = b

/-- A BS.OPEN in write mode that is done found the block Idle and started a session (R121, R122). -/
theorem call_bsOpen_writing {s t : State} {w : RespWord} (hs : s.Inv) (h : call (.bsOpen 0) s = .done w t) : Writing [] t := by
  obtain ⟨hexec, hfaultless⟩ := call_exec (i := .bsOpen 0) rfl h
  have hidle : s.bsMode = .idle := by
    cases exec_effect hexec with
    | raised k => exact absurd hfaultless (withFault_not_faultless s k)
    | answered d hi => simp at hi
    | openedWrite st hidle => exact hidle
  obtain ⟨t', hopen, -, hmode, -, hbits⟩ := execBsOpen_writing hidle
  cases hopen.symm.trans hexec
  exact ⟨call_inv hs h, hmode, hbits⟩

/-- A BS.WRITE that is done appended its bits (R124). -/
theorem Writing.call_bsWrite {b : List Bool} {s t : State} (hs : Writing b s) {n : BitVec 8} {v : BitVec 32} {w : RespWord}
    (hn : n.toNat ≤ 32) (h : call (.bsWrite n v) s = .done w t) : Writing (b ++ bitsOf v.toNat n.toNat) t := by
  obtain ⟨hinv, hmode, hbits⟩ := hs
  obtain ⟨hexec, hfaultless⟩ := call_exec (i := .bsWrite n v) (decide_eq_true hn) h
  have happend : appendBits n.toNat v s = .next t ∧ s.bsTotal.toNat + n.toNat ≤ Config.maxTotal := by
    cases exec_effect hexec with
    | raised k => exact absurd hfaultless (withFault_not_faultless s k)
    | answered d hi => simp at hi
    | appended n v st acc nacc total hlegal hmode htotal hsize happend => exact ⟨happend, htotal⟩
  obtain ⟨t', happend', -, -, -, -, -, hbits', -, -, -, hmode', -⟩ := appendBits_spec n.toNat v s hinv hmode hn happend.2
  cases happend'.symm.trans happend.1
  exact ⟨call_inv hinv h, hmode'.trans hmode, hbits'.trans (by rw [hbits])⟩

/-- BS.WRITE commands that are all done appended their bits in order. -/
theorem Writing.callAll_bsWrite {ws : List (BitVec 8 × BitVec 32)} {b : List Bool} {s t : State} (hs : Writing b s)
    (hn : ∀ p ∈ ws, p.1.toNat ≤ 32) (h : callAll (ws.map fun p => .bsWrite p.1 p.2) s = .done () t) :
    Writing (b ++ ws.flatMap fun p => bitsOf p.2.toNat p.1.toNat) t := by
  induction ws generalizing b s with
  | nil =>
    cases h
    rwa [List.flatMap_nil, List.append_nil]
  | cons p ws ih =>
    obtain ⟨hp, hws⟩ := List.forall_mem_cons.mp hn
    obtain ⟨w, u, hcall, hrest⟩ := andThen_done h
    rw [List.flatMap_cons, ← List.append_assoc]
    exact ih (hs.call_bsWrite hp hcall) hws hrest

/-- A BS.WRITECODE that is done appended the whole code (R89, R175). -/
theorem Writing.callAll_bsWriteCode {b code : List Bool} {s t : State} (hs : Writing b s)
    (h : callAll (bsWriteCode code) s = .done () t) : Writing (b ++ code) t := by
  rw [bsWriteCode_eq] at h
  have hwritten := hs.callAll_bsWrite (writeCodeOperands_le code) h
  rwa [writeCodeOperands_bits] at hwritten

/-- Writing the symbols appends their codes in order (R174). -/
theorem Writing.writeSymbols_codes {table : CodeTable} {input : List Byte} {b : List Bool} {s t : State} (hs : Writing b s)
    (h : writeSymbols table input s = .done () t) : Writing (b ++ codedBits table input) t := by
  induction input generalizing b s with
  | nil =>
    cases h
    rwa [codedBits, List.flatMap_nil, List.append_nil]
  | cons c cs ih =>
    unfold writeSymbols at h
    split at h
    · cases h
    · next code hcode =>
      obtain ⟨_, u, hcall, hrest⟩ := andThen_done h
      have hcs := ih (hs.callAll_bsWriteCode hcall) hrest
      rwa [List.append_assoc, ← Option.getD_some (a := code), ← hcode] at hcs

/-- An Encoder that is done leaves BitFile of the codes of its input (R131, R174). -/
theorem encodeWith_bitFile {table : CodeTable} {input : List Byte} {s t : State} (hs : s.Inv)
    (h : encodeWith table input s = .done () t) :
    t.bsMode = .idle ∧ (codedBits table input).length < 2 ^ 32 ∧ t.storage.bytes = bitFile (codedBits table input) := by
  obtain ⟨w, s1, hopen, h⟩ := andThen_done h
  obtain ⟨_, s2, hwrite, h⟩ := andThen_done h
  obtain ⟨w', s3, hclose, h⟩ := andThen_done h
  cases h
  obtain ⟨hinv, hmode, hbits⟩ := (call_bsOpen_writing hs hopen).writeSymbols_codes hwrite
  rw [List.nil_append] at hbits
  obtain ⟨u, hclosed, -, hidle, -, hlen, hbytes⟩ := execBsClose_bitFile hinv hmode
  cases hclosed.symm.trans (call_exec (i := .bsClose) rfl hclose).1
  rw [hbits] at hlen hbytes
  exact ⟨hidle, hlen ▸ s2.bsTotal.isLt, hbytes⟩

/-- A whole encode that ends with a tree built it and then wrote the input with its codes. -/
theorem encodeInput_done_some {input : List Byte} {root : Tree} {s t : State} (h : encodeInput input s = .done (some root) t) :
    ∃ u, buildTree (frequencies input) s = .done root u ∧ encodeWith (codeTable root) input u = .done () t := by
  unfold encodeInput at h
  split at h
  · cases h
  · split at h
    · obtain ⟨-, u, -, h⟩ := andThen_done h
      cases h
    · next f fs hfreqs =>
      obtain ⟨r, u, hbuild, h⟩ := andThen_done h
      obtain ⟨_, v, hencode, h⟩ := andThen_done h
      cases h
      exact ⟨u, hfreqs ▸ hbuild, hencode⟩

/-- Settles O52: the build keeps the invariant the Encoder's session starts from. -/
theorem encodeLeavesTheBitFileOfTheCodes : Obligations.EncodeLeavesTheBitFileOfTheCodes := by
  unfold Obligations.EncodeLeavesTheBitFileOfTheCodes
  intro input s t root hs h
  obtain ⟨u, hbuild, hencode⟩ := encodeInput_done_some h
  obtain ⟨hidle, hfits, hbytes⟩ := encodeWith_bitFile (buildTree_inv hs hbuild) hencode
  refine ⟨hbytes, ?_, hidle⟩
  rw [Storage.declaredLen_bitFile hbytes hfits, codedBits, List.length_flatMap]

end Sys2Proof.Client
end

section
/-! RDREG (R150): the words that are no RDREG, and the value each register number answers with. -/

namespace Sys2Proof.Machine

/-- A word the decoder refuses raises `IllegalCommand` (R84, R209). -/
theorem runWord_of_error {w : CmdWord} {e : IllegalWord} (s : State) (h : decode w = .error e) :
    runWord w s = raise .illegalCommand s := by
  rw [runWord, h]
  rfl

/-- A number above 8 after the `OP` of RDREG makes no legal word (R84). -/
theorem decode_encode_rdReg_of_not_regNumOk {num : BitVec 8} (h : Instr.regNumOk num = false) :
    decode (encode (.rdReg num)) = .error .registerTooLarge := by
  simp [decode, encode, h]

/-- RDREG answers with the register and writes nothing else (R150). -/
theorem execRdReg_of_readReg {num : BitVec 8} {s : State} {v : BitVec 32} (h : readReg s num.toNat = some v) :
    execRdReg num s = .next (s.withResponse 0 v) := by
  rw [execRdReg, h]
  exact respond_eq 0 v s

/-- Settles O31: the number decides whether the word is RDREG, and each number from 0 to 8 names its register. -/
theorem rdregReturnsTheRegister : Obligations.RdregReturnsTheRegister := by
  unfold Obligations.RdregReturnsTheRegister
  intro s num
  refine ⟨fun hle => ?_, fun hgt => ?_, fun v hv => ?_⟩
  · exact decode_encode (i := .rdReg num) (decide_eq_true (Nat.lt_succ_of_le hle))
  · have hrefused := decode_encode_rdReg_of_not_regNumOk (num := num) (decide_eq_false (Nat.not_lt.mpr hgt))
    exact ⟨⟨_, hrefused⟩, raisesOnly_of_eq (runWord_of_error s hrefused)⟩
  · have hread : readReg s num.toNat = some v := by
      simp only [List.mem_cons, Prod.mk.injEq, List.not_mem_nil, or_false] at hv
      obtain ⟨hnum, rfl⟩ | ⟨hnum, rfl⟩ | ⟨hnum, rfl⟩ | ⟨hnum, rfl⟩ | ⟨hnum, rfl⟩ | ⟨hnum, rfl⟩ | ⟨hnum, rfl⟩ | ⟨hnum, rfl⟩ |
        ⟨hnum, rfl⟩ := hv <;> exact congrArg (readReg s) hnum
    exact ⟨_, ⟨execRdReg_of_readReg hread, rfl⟩, ⟨rfl, rfl, rfl, rfl, rfl, rfl⟩, ⟨rfl, rfl⟩, rfl, rfl, rfl⟩

end Sys2Proof.Machine
end

section
/-! Code tables (R164, R165, R173): what stands in one, why no code begins another, and how long a code can be. -/

namespace Sys2Proof.Client

open Sys2Proof.Machine

/-! ## The walk -/

/-- The walk from a path records the walk from the root with the path before each code. -/
theorem walkCodes_eq_map (t : Tree) (path : List Bool) : walkCodes t path = (walkCodes t []).map fun p => (p.1, path ++ p.2) := by
  induction t generalizing path with
  | leaf c w => simp [walkCodes]
  | stray n w => rfl
  | internal w l r hl hr =>
    rw [walkCodes, walkCodes, hl (path ++ [false]), hr (path ++ [true]), hl ([] ++ [false]), hr ([] ++ [true])]
    simp [Function.comp_def]

theorem path_prefix_of_mem_walkCodes {t : Tree} {path : List Bool} {p : Byte × List Bool} (h : p ∈ walkCodes t path) : path <+: p.2 := by
  rw [walkCodes_eq_map] at h
  obtain ⟨q, -, rfl⟩ := List.mem_map.mp h
  exact List.prefix_append path q.2

/-- A code below an Internal node is one bit and a code below the child that bit leads to (R173). -/
theorem mem_walkCodes_internal {c : Byte} {code : List Bool} {w : Nat} {l r : Tree} :
    (c, code) ∈ walkCodes (.internal w l r) [] ↔ ∃ x rest, code = x :: rest ∧ (c, rest) ∈ walkCodes (if x then r else l) [] := by
  rw [walkCodes, walkCodes_eq_map l, walkCodes_eq_map r]
  simp [eq_comm, and_comm]

/-! ## No code begins another -/

/-- Codes that part at a node cannot begin one another. -/
theorem not_prefix_of_branches {path p q : List Bool} {x y : Bool} (hxy : x ≠ y) (hp : path ++ [x] <+: p) (hq : path ++ [y] <+: q) :
    ¬ p <+: q := fun h => by
  have heq := (List.prefix_of_prefix_length_le (hp.trans h) hq (by simp)).eq_of_length (by simp)
  simp [hxy] at heq

theorem walkCodes_prefixFree (t : Tree) (path : List Bool) :
    (walkCodes t path).Pairwise fun p q => ¬ p.2 <+: q.2 ∧ ¬ q.2 <+: p.2 := by
  induction t generalizing path with
  | leaf c w => exact List.pairwise_singleton _ _
  | stray n w => exact .nil
  | internal w l r hl hr =>
    refine List.pairwise_append.mpr ⟨hl _, hr _, fun p hp q hq => ?_⟩
    have hleft := path_prefix_of_mem_walkCodes hp
    have hright := path_prefix_of_mem_walkCodes hq
    exact ⟨not_prefix_of_branches (by decide) hleft hright, not_prefix_of_branches (by decide) hright hleft⟩

/-- Settles O50: codes of the walk part at a node, and a tree of one node has at most one code. -/
theorem codeTableIsPrefixFree : Obligations.CodeTableIsPrefixFree := by
  unfold Obligations.CodeTableIsPrefixFree
  intro tree
  cases tree with
  | leaf c w => exact List.pairwise_singleton _ _
  | internal w l r => exact walkCodes_prefixFree (.internal w l r) []
  | stray n w => exact .nil

/-! ## Finding codes -/

/-- The code found for a symbol stands in the table. -/
theorem mem_of_codeOf {table : CodeTable} {c : Byte} {code : List Bool} (h : codeOf table c = some code) : (c, code) ∈ table := by
  obtain ⟨⟨d, code'⟩, hfind, rfl⟩ := Option.map_eq_some_iff.mp h
  have hsymbol := List.find?_some hfind
  simp only [decide_eq_true_eq] at hsymbol
  exact hsymbol ▸ List.mem_of_find?_eq_some hfind

/-- Only a symbol of the table has a code. -/
theorem codeOf_isSome_iff {table : CodeTable} {c : Byte} : (codeOf table c).isSome = true ↔ c ∈ table.map Prod.fst := by
  simp [codeOf]

theorem walkCodes_symbols (t : Tree) (path : List Bool) : (walkCodes t path).map Prod.fst = t.leaves.map FreqEntry.symbol := by
  induction t generalizing path with
  | leaf c w => rfl
  | stray n w => rfl
  | internal w l r hl hr => rw [walkCodes, Tree.leaves, List.map_append, List.map_append, hl, hr]

/-- The symbols of a code table are those of the tree's leaves (R164). -/
theorem codeTable_symbols (t : Tree) : (codeTable t).map Prod.fst = t.leaves.map FreqEntry.symbol := by
  cases t with
  | leaf c w => rfl
  | stray n w => rfl
  | internal w l r => exact walkCodes_symbols _ _

/-! ## How long codes are -/

theorem leaves_length_pos {t : Tree} (h : t.strays = []) : 0 < t.leaves.length := by
  induction t with
  | leaf c w => exact Nat.one_pos
  | stray n w => cases h
  | internal w l r hl hr =>
    rw [Tree.leaves, List.length_append]
    exact Nat.add_pos_left (hl (List.append_eq_nil_iff.mp h).1) _

/-- In a tree without strays every bit of a code leaves a leaf behind, so a code is shorter than the number of leaves. -/
theorem code_length_lt_leaves {t : Tree} (h : t.strays = []) {c : Byte} {code : List Bool} (hcode : (c, code) ∈ walkCodes t []) :
    code.length < t.leaves.length := by
  induction t generalizing code with
  | leaf d w =>
    cases List.mem_singleton.mp hcode
    exact Nat.one_pos
  | stray n w => cases h
  | internal w l r hl hr =>
    obtain ⟨hleft, hright⟩ := List.append_eq_nil_iff.mp h
    obtain ⟨x, rest, rfl, hrest⟩ := mem_walkCodes_internal.mp hcode
    rw [Tree.leaves, List.length_append, List.length_cons]
    cases x with
    | false =>
      have hlt := hl hleft hrest
      have hpos := leaves_length_pos hright
      omega
    | true =>
      have hlt := hr hright hrest
      have hpos := leaves_length_pos hleft
      omega

/-- No code of a tree of at most 256 leaves and no strays has more than 255 bits (R173). -/
theorem code_length_le {root : Tree} (hstrays : root.strays = []) (hleaves : root.leaves.length ≤ Config.nsym) {c : Byte}
    {code : List Bool} (hcode : (c, code) ∈ codeTable root) : code.length ≤ 255 := by
  cases root with
  | leaf d w =>
    cases List.mem_singleton.mp hcode
    exact Nat.le_of_ble_eq_true rfl
  | stray n w => cases hstrays
  | internal w l r => exact Nat.le_of_lt_succ ((code_length_lt_leaves hstrays hcode).trans_le hleaves)

/-- Where no code has more than `n` bits, an input's bits are at most `n` for each symbol. -/
theorem codedBits_length_le {table : CodeTable} {n : Nat} (h : ∀ p ∈ table, p.2.length ≤ n) (input : List Byte) :
    (codedBits table input).length ≤ input.length * n := by
  rw [codedBits, List.length_flatMap, ← List.length_map (as := input), ← smul_eq_mul]
  refine List.sum_le_card_nsmul _ n (List.forall_mem_map.mpr fun c _ => ?_)
  cases hcode : codeOf table c with
  | none => exact Nat.zero_le n
  | some code => exact h _ (mem_of_codeOf hcode)

end Sys2Proof.Client
end

section
/-! The Decoder (R176 to R179): over the BitFile of an input's codes it emits the input, and bits left over inside a code end it in
`TruncatedStreamError`. -/

namespace Sys2Proof.Client

open Sys2Proof.Machine

/-! ## Calls that complete -/

/-- A well-formed command that completes answers the client's call. -/
theorem call_of_exec {i : Instr} (hi : i.wf = true) {s t : State} {p : BitVec 16} {d : BitVec 32} (h : exec i s = .next t)
    (hreply : t.reply = .response (respWord 0 p d)) : call i s = .done (respWord 0 p d) t :=
  call_of (decode_encode hi) h hreply (respStatus_respWord 0 p d)

/-- A decode over the Storage of `o`, with the bits `rest` still to be read (R40, R133). -/
structure Decoding (o : State) (rest : List Bool) (s : State) : Prop where
  reading : ∃ b c, Reading b c s ∧ b.drop c = rest
  storage : s.storage = o.storage
  errlog : s.errlog = o.errlog

section Session

variable {o s : State} {rest : List Bool}

/-- Opening a Storage that holds `BitFile(b)` leaves all of `b` to be read (R123). -/
theorem call_bsOpen_decoding {b : List Bool} (hidle : o.bsMode = .idle) (hb : b.length ≤ 4294967295)
    (hbytes : o.storage.bytes = bitFile b) : ∃ w t, call (.bsOpen 1) o = .done w t ∧ Decoding o b t := by
  obtain ⟨t, hexec, hreply, hreading⟩ := execBsOpen_reading hidle hb hbytes
  have hok := (Storage.canonical_bitFile hbytes (Nat.lt_succ_of_le hb)).1
  obtain rfl := Host.Outcome.next.inj (hexec.symm.trans ((execBsOpen_read hidle).trans (openRead_of_acceptable hok)))
  exact ⟨_, _, call_of_exec (i := .bsOpen 1) rfl hexec hreply, ⟨b, 0, hreading, rfl⟩, rfl, rfl⟩

theorem Decoding.remain (h : Decoding o rest s) : s.bsRemain.toNat = rest.length := by
  obtain ⟨⟨b, c, hreading, rfl⟩, -, -⟩ := h
  rw [hreading.remain, List.length_drop]

theorem Decoding.call_bsMore (h : Decoding o rest s) :
    ∃ t, call .bsMore s = .done (respWord 0 0 (if 0 < rest.length then 1 else 0)) t ∧ Decoding o rest t := by
  have hremain := h.remain
  obtain ⟨⟨b, c, ⟨hmode, hbytes, hlen, hleft⟩, hdrop⟩, hstorage, herrlog⟩ := h
  have hexec := execBsMore_of_read hmode
  rw [hremain] at hexec
  exact ⟨_, call_of_exec (i := .bsMore) rfl hexec rfl, ⟨b, c, ⟨hmode, hbytes, hlen, hleft⟩, hdrop⟩, hstorage, herrlog⟩

/-- BS.READBIT returns the first bit left (R125). -/
theorem Decoding.call_bsReadBit {x : Bool} (h : Decoding o (x :: rest) s) :
    ∃ t, call bsReadBit s = .done (respWord 0 0 (BitVec.ofNat 32 x.toNat)) t ∧ Decoding o rest t := by
  obtain ⟨⟨b, c, hreading, hdrop⟩, hstorage, herrlog⟩ := h
  have hleft : c + 1 ≤ b.length := by
    have hlength := congrArg List.length hdrop
    rw [List.length_drop, List.length_cons] at hlength
    omega
  obtain ⟨t, hexec, hreply, ht⟩ := hreading.execBsRead_slice (n := 1) (by decide) hleft
  have hbit : bitsValue ((b.drop c).take (1 : BitVec 8).toNat) = x.toNat := by
    rw [hdrop]
    exact Nat.zero_add _
  rw [hbit] at hreply
  have hrest : b.drop (c + 1) = rest := by rw [← List.drop_drop, hdrop, List.drop_one, List.tail_cons]
  refine ⟨t, call_of_exec (i := bsReadBit) rfl hexec hreply, ⟨b, c + 1, ht, hrest⟩, ?_, ?_⟩
  · cases exec_effect (i := .bsRead 1) hexec with
    | raised | answered | took => exact hstorage
  · exact ((errlogKeepsTheFirstCode (.bsRead 1) _ _ hexec).1 _ hreply (respStatus_respWord _ _ _)).trans herrlog

/-- BS.CLOSE ends the decode and only releases the block (R129). -/
theorem Decoding.call_bsClose (h : Decoding o rest s) :
    ∃ w t, call .bsClose s = .done w t ∧ t.bsMode = .idle ∧ t.errlog = o.errlog ∧ t.storage = o.storage := by
  obtain ⟨⟨b, c, hreading, -⟩, hstorage, herrlog⟩ := h
  have hexec : exec .bsClose s = _ := execBsClose_of_read hreading.mode
  exact ⟨_, _, call_of_exec (i := .bsClose) rfl (hexec.trans (respond_eq 0 0 _)) rfl, rfl, herrlog, hstorage⟩

theorem Decoding.decodeEnd_atRoot (h : Decoding o rest s) : ∃ u, decodeEnd .atRoot s = .done () u := by
  obtain ⟨w, u, hclose, -⟩ := h.call_bsClose
  exact ⟨u, by rw [decodeEnd, hclose]; rfl⟩

/-- Ending below the root is the client's `TruncatedStreamError`, which the block does not log (R176). -/
theorem Decoding.decodeEnd_traversing (h : Decoding o rest s) (cur : Tree) :
    ∃ u, decodeEnd (.traversing cur) s = .failed .truncatedStreamError u ∧ u.bsMode = .idle ∧ u.errlog = o.errlog ∧
      u.storage = o.storage := by
  obtain ⟨w, u, hclose, hkept⟩ := h.call_bsClose
  exact ⟨u, by rw [decodeEnd, hclose]; rfl, hkept⟩

/-! ## The loop, bit by bit -/

/-- What the loop does next when a bit has led it to a node (R176). -/
def arriveAt (root : Tree) (fuel : Nat) (s : State) : Tree → Emitted Position
  | .leaf c _ => (decodeLoop root fuel .atRoot s).after c
  | .internal w l r => decodeLoop root fuel (.traversing (.internal w l r)) s
  | .stray _ _ => (Ran.declined s).silent

/-- With no bit left the loop ends where it stands. -/
theorem Decoding.decodeLoop_nil (h : Decoding o [] s) (root : Tree) (fuel : Nat) (pos : Position) :
    ∃ t, decodeLoop root (fuel + 1) pos s = (Ran.done pos t).silent ∧ Decoding o [] t := by
  obtain ⟨t, hmore, ht⟩ := h.call_bsMore
  exact ⟨t, by simp [decodeLoop, hmore], ht⟩

/-- A turn reads one bit and goes to the child it names. -/
theorem Decoding.decodeLoop_cons {x : Bool} (h : Decoding o (x :: rest) s) {root : Tree} {pos : Position} {w : Nat} {l r : Tree}
    (hpos : pos.node root = .internal w l r) (fuel : Nat) :
    ∃ t, decodeLoop root (fuel + 1) pos s = arriveAt root fuel t (if x then r else l) ∧ Decoding o rest t := by
  obtain ⟨t, hmore, ht⟩ := h.call_bsMore
  obtain ⟨u, hread, hu⟩ := ht.call_bsReadBit
  refine ⟨u, ?_, hu⟩
  have hchild : (if BitVec.ofNat 32 x.toNat = 0 then l else r) = if x then r else l := by cases x <;> rfl
  simp only [decodeLoop, hmore, hread, done_thenEmits, respData_respWord, hpos, hchild, List.length_cons, Nat.zero_lt_succ, if_true]
  cases (if x then r else l) <;> rfl

/-- Reading a code from an Internal node emits its symbol and ends at the root (R176). -/
theorem Decoding.decodeLoop_code {c : Byte} {code : List Bool} (h : Decoding o (code ++ rest) s) {root : Tree} {pos : Position}
    {w : Nat} {l r : Tree} (hpos : pos.node root = .internal w l r) (hcode : (c, code) ∈ walkCodes (.internal w l r) []) (fuel : Nat) :
    ∃ t, decodeLoop root (fuel + code.length) pos s = (decodeLoop root fuel .atRoot t).after c ∧ Decoding o rest t := by
  induction code generalizing s pos w l r with
  | nil =>
    obtain ⟨_, _, hnil, -⟩ := mem_walkCodes_internal.mp hcode
    cases hnil
  | cons x code ih =>
    obtain ⟨_, _, hcons, hchild⟩ := mem_walkCodes_internal.mp hcode
    cases hcons
    obtain ⟨u, hturn, hu⟩ := h.decodeLoop_cons hpos (fuel + code.length)
    rw [List.length_cons, ← Nat.add_assoc, hturn]
    cases hnode : (if x then r else l) with
    | leaf d v =>
      rw [hnode] at hchild
      cases List.mem_singleton.mp hchild
      exact ⟨u, rfl, hu⟩
    | internal v l' r' => exact ih hu (pos := .traversing (.internal v l' r')) rfl (hnode ▸ hchild)
    | stray n v =>
      rw [hnode] at hchild
      cases hchild

/-- Bits that end inside a code emit nothing; after the first of them the loop ends below the root (R176). -/
theorem Decoding.decodeLoop_part {part : List Bool} (h : Decoding o part s) {c : Byte} {code : List Bool} {root : Tree}
    {pos : Position} {w : Nat} {l r : Tree} (hpos : pos.node root = .internal w l r)
    (hcode : (c, code) ∈ walkCodes (.internal w l r) []) (hprefix : part <+: code) (hproper : part ≠ code) :
    ∃ pos' t, decodeLoop root (part.length + 1) pos s = (Ran.done pos' t).silent ∧ Decoding o [] t ∧
      (part = [] ∧ pos' = pos ∨ ∃ cur, pos' = .traversing cur) := by
  induction part generalizing s pos w l r code with
  | nil =>
    obtain ⟨t, hend, ht⟩ := h.decodeLoop_nil root 0 pos
    exact ⟨pos, t, hend, ht, .inl ⟨rfl, rfl⟩⟩
  | cons x part ih =>
    obtain ⟨_, code, rfl, hchild⟩ := mem_walkCodes_internal.mp hcode
    obtain ⟨rfl, hpart⟩ := List.cons_prefix_cons.mp hprefix
    have hrest : part ≠ code := fun heq => hproper (heq ▸ rfl)
    obtain ⟨u, hturn, hu⟩ := h.decodeLoop_cons hpos (part.length + 1)
    rw [List.length_cons, hturn]
    cases hnode : (if x then r else l) with
    | leaf d v =>
      rw [hnode] at hchild
      cases List.mem_singleton.mp hchild
      exact absurd (List.prefix_nil.mp hpart) hrest
    | internal v l' r' =>
      obtain ⟨pos', t, hloop, ht, hwhere⟩ :=
        ih hu (pos := .traversing (.internal v l' r')) rfl (hnode ▸ hchild) hpart hrest
      exact ⟨pos', t, hloop, ht, .inr (hwhere.elim (fun hstart => ⟨_, hstart.2⟩) id)⟩
    | stray n v =>
      rw [hnode] at hchild
      cases hchild

/-! ## The loop over an input -/

theorem codedBits_cons {table : CodeTable} {c : Byte} {code : List Bool} (h : codeOf table c = some code) (cs : List Byte) :
    codedBits table (c :: cs) = code ++ codedBits table cs := by
  rw [codedBits, List.flatMap_cons, h]
  rfl

/-- Over the codes of an input the loop emits the input and stands at the root again. -/
theorem Decoding.decodeLoop_input {w : Nat} {l r : Tree} {input : List Byte}
    (h : Decoding o (codedBits (codeTable (.internal w l r)) input ++ rest) s)
    (hcodes : ∀ c ∈ input, (codeOf (codeTable (.internal w l r)) c).isSome = true) (fuel : Nat) :
    ∃ t, decodeLoop (.internal w l r) (fuel + (codedBits (codeTable (.internal w l r)) input).length) .atRoot s =
        ⟨input ++ (decodeLoop (.internal w l r) fuel .atRoot t).output, (decodeLoop (.internal w l r) fuel .atRoot t).ending⟩ ∧
      Decoding o rest t := by
  induction input generalizing s with
  | nil => exact ⟨s, rfl, h⟩
  | cons c cs ih =>
    obtain ⟨hc, hcs⟩ := List.forall_mem_cons.mp hcodes
    obtain ⟨code, hcode⟩ := Option.isSome_iff_exists.mp hc
    rw [codedBits_cons hcode] at h ⊢
    rw [List.append_assoc] at h
    obtain ⟨u, hloop, hu⟩ := h.decodeLoop_code (root := .internal w l r) (pos := .atRoot) rfl (mem_of_codeOf hcode)
      (fuel + (codedBits (codeTable (.internal w l r)) cs).length)
    obtain ⟨t, hinput, ht⟩ := ih hu hcs
    refine ⟨t, ?_, ht⟩
    rw [List.length_append, Nat.add_comm code.length, ← Nat.add_assoc, hloop, hinput]
    rfl

/-- The loop of a single-Leaf tree emits its symbol for every bit left (R177). -/
theorem Decoding.decodeLeafLoop_all (h : Decoding o rest s) (c : Byte) :
    ∃ t, decodeLeafLoop c (rest.length + 1) s = ⟨List.replicate rest.length c, .done () t⟩ ∧ Decoding o [] t := by
  induction rest generalizing s with
  | nil =>
    obtain ⟨t, hmore, ht⟩ := h.call_bsMore
    exact ⟨t, by simp [decodeLeafLoop, hmore, Ran.silent], ht⟩
  | cons x rest ih =>
    obtain ⟨t, hmore, ht⟩ := h.call_bsMore
    obtain ⟨u, hread, hu⟩ := ht.call_bsReadBit
    obtain ⟨v, hloop, hv⟩ := ih hu
    refine ⟨v, ?_, hv⟩
    rw [decodeLeafLoop, hmore, done_thenEmits, hread, done_thenEmits, List.length_cons, hloop]
    simp [Emitted.after, List.replicate_succ]

end Session

end Sys2Proof.Client
end

section
/-! The Frequency Analyzer (R167): each symbol of the input once, with its count. -/

namespace Sys2Proof.Client

/-- The 256 symbols in ascending order (R161). -/
def symbols : List Byte := (List.range Config.nsym).map (BitVec.ofNat 8)

theorem symbols_nodup : symbols.Nodup := by
  refine List.Nodup.map_on (fun i hi j hj hij => ?_) List.nodup_range
  rw [List.mem_range, Config.nsym] at hi hj
  have heq := congrArg BitVec.toNat hij
  simp only [BitVec.toNat_ofNat] at heq
  omega

theorem mem_symbols (b : Byte) : b ∈ symbols :=
  List.mem_map.mpr ⟨b.toNat, List.mem_range.mpr b.isLt, BitVec.eq_of_toNat_eq (by simp)⟩

/-- The Frequency Analyzer counts the symbols that occur. -/
theorem frequencies_eq (input : List Byte) :
    frequencies input = (symbols.filter fun b => input.count b ≠ 0).map fun b => ⟨b, input.count b⟩ := by
  rw [frequencies, symbols, ← List.filterMap_eq_map, ← List.filterMap_eq_filter, List.filterMap_filterMap, List.filterMap_map]
  refine List.filterMap_congr fun k _ => ?_
  by_cases h : input.count (BitVec.ofNat 8 k) = 0 <;> simp [h, Option.guard]

theorem frequencies_length_le (input : List Byte) : (frequencies input).length ≤ Config.nsym := by
  rw [frequencies_eq, List.length_map]
  exact (List.length_filter_le _ _).trans_eq (by simp [symbols])

theorem frequencies_symbols (input : List Byte) :
    (frequencies input).map FreqEntry.symbol = symbols.filter fun b => input.count b ≠ 0 := by
  rw [frequencies_eq, List.map_map]
  exact List.map_id _

theorem frequencies_symbols_nodup (input : List Byte) : ((frequencies input).map FreqEntry.symbol).Nodup :=
  frequencies_symbols input ▸ symbols_nodup.filter _

theorem mem_frequencies_symbols {input : List Byte} {b : Byte} : b ∈ (frequencies input).map FreqEntry.symbol ↔ b ∈ input := by
  rw [frequencies_symbols, List.mem_filter, decide_eq_true_iff, ← Nat.pos_iff_ne_zero, List.count_pos_iff]
  exact and_iff_right (mem_symbols b)

theorem frequencies_eq_nil_iff {input : List Byte} : frequencies input = [] ↔ input = [] := by
  rw [← List.map_eq_nil_iff (f := FreqEntry.symbol), List.eq_nil_iff_forall_not_mem, List.eq_nil_iff_forall_not_mem]
  exact forall_congr' fun b => not_congr mem_frequencies_symbols

/-- The counts add up to the input's length (R167). -/
theorem frequencies_count_sum (input : List Byte) : ((frequencies input).map FreqEntry.count).sum = input.length := by
  have hperm : (symbols.filter fun b => input.count b ≠ 0).Perm input.dedup :=
    (List.perm_ext_iff_of_nodup (symbols_nodup.filter _) input.nodup_dedup).mpr fun b => by
      rw [← frequencies_symbols, mem_frequencies_symbols, List.mem_dedup]
  rw [frequencies_eq, List.map_map, ← List.sum_map_count_dedup_eq_length input]
  exact (hperm.map _).sum_eq

theorem count_le_of_mem_frequencies {input : List Byte} {f : FreqEntry} (h : f ∈ frequencies input) : f.count ≤ input.length := by
  rw [← frequencies_count_sum]
  exact List.le_sum_of_mem (List.mem_map_of_mem h)

end Sys2Proof.Client
end

section
/-! What a whole decode gives back (R176 to R181). -/

namespace Sys2Proof.Client

open Sys2Proof.Machine

/-! ## Decoding an input's codes -/

section Opened

variable {s t : State} {resp : RespWord} {bits : List Bool} (hopen : call (.bsOpen 1) s = .done resp t) (hs : Decoding s bits t)

include hopen hs

/-- With a single-Leaf tree a decode emits the symbol once for each bit (R170, R177). -/
theorem decodeWith_leaf (c : Byte) (w : Nat) :
    ∃ u, decodeWith (some (.leaf c w)) s = ⟨List.replicate bits.length c, .done () u⟩ := by
  obtain ⟨v, hloop, hv⟩ := hs.decodeLeafLoop_all c
  obtain ⟨u, hend⟩ := hv.decodeEnd_atRoot
  refine ⟨u, ?_⟩
  rw [decodeWith, hopen, done_thenEmits]
  simp only [hs.remain, hloop, Emitted.andThen, Ran.andThen, hend]

/-- With an Internal root a decode runs the loop from the root and ends where the loop ends (R176). -/
theorem decodeWith_internal {w : Nat} {l r : Tree} {output : List Byte} {pos : Position} {v : State}
    (hloop : decodeLoop (.internal w l r) (bits.length + 1) .atRoot t = ⟨output, .done pos v⟩) :
    decodeWith (some (.internal w l r)) s = ⟨output, decodeEnd pos v⟩ := by
  rw [decodeWith, hopen, done_thenEmits]
  simp only [hs.remain, hloop, Emitted.andThen, Ran.andThen]

end Opened

/-- Every symbol that has a code in a single-Leaf tree's table is that Leaf's, and costs one bit (R170). -/
theorem codedBits_leaf {c : Byte} {w : Nat} {input : List Byte}
    (hcodes : ∀ d ∈ input, (codeOf (codeTable (.leaf c w)) d).isSome = true) :
    input = List.replicate (codedBits (codeTable (.leaf c w)) input).length c := by
  have hall : ∀ d ∈ input, d = c := fun d hd => by
    simpa [codeTable] using codeOf_isSome_iff.mp (hcodes d hd)
  have hbits : codedBits (codeTable (.leaf c w)) input = input.flatMap fun _ => [false] :=
    List.flatMap_congr fun d hd => by simp [hall d hd, codeTable, codeOf]
  rw [hbits, List.length_flatMap]
  exact List.eq_replicate_iff.mpr ⟨by simp, hall⟩

/-- A decode of the BitFile of an input's codes gives the input back. -/
theorem decodeWith_codedBits {root : Tree} {input : List Byte} {s : State} (hidle : s.bsMode = .idle) (hne : input ≠ [])
    (hcodes : ∀ c ∈ input, (codeOf (codeTable root) c).isSome = true)
    (hfits : (codedBits (codeTable root) input).length ≤ 4294967295)
    (hbytes : s.storage.bytes = bitFile (codedBits (codeTable root) input)) :
    ∃ u, decodeWith (some root) s = ⟨input, .done () u⟩ := by
  obtain ⟨resp, t, hopen, ht⟩ := call_bsOpen_decoding hidle hfits hbytes
  cases root with
  | leaf c w =>
    obtain ⟨u, hdecode⟩ := decodeWith_leaf hopen ht c w
    exact ⟨u, by rw [hdecode, ← codedBits_leaf hcodes]⟩
  | stray n w =>
    obtain ⟨c, hc⟩ := List.exists_mem_of_ne_nil input hne
    cases hcodes c hc
  | internal w l r =>
    rw [← List.append_nil (codedBits _ _)] at ht
    obtain ⟨u, hinput, hu⟩ := ht.decodeLoop_input hcodes 1
    obtain ⟨v, hnil, hv⟩ := hu.decodeLoop_nil (.internal w l r) 0 .atRoot
    obtain ⟨x, hend⟩ := hv.decodeEnd_atRoot
    rw [hnil, silent_output, silent_ending, List.append_nil, Nat.add_comm] at hinput
    exact ⟨x, by rw [decodeWith_internal hopen ht (by rwa [List.append_nil]), hend]⟩

/-- With no tree a decode of no bits emits nothing (R169). -/
theorem decodeWith_none {s : State} (hidle : s.bsMode = .idle) (hbytes : s.storage.bytes = bitFile []) :
    ∃ u, decodeWith none s = ⟨[], .done () u⟩ := by
  obtain ⟨resp, t, hopen, ht⟩ := call_bsOpen_decoding hidle (Nat.zero_le _) hbytes
  obtain ⟨u, hmore, hu⟩ := ht.call_bsMore
  obtain ⟨v, hend⟩ := hu.decodeEnd_atRoot
  refine ⟨v, ?_⟩
  rw [decodeWith, hopen, done_thenEmits]
  simp [hmore, Ran.andThen, hend, Ran.silent]

/-- Settles O58: the loop emits the input and stands at the root, and the bits left over lead it below the root. -/
theorem decodeEndingInsideACodeKeepsTheSymbolsEmitted : Obligations.DecodeEndingInsideACodeKeepsTheSymbolsEmitted := by
  unfold Obligations.DecodeEndingInsideACodeKeepsTheSymbolsEmitted
  intro root input b code part s hidle hcodes hcode hprefix hne hproper hfits hbytes
  obtain ⟨resp, t, hopen, ht⟩ := call_bsOpen_decoding hidle hfits hbytes
  cases root with
  | leaf c w =>
    cases List.mem_singleton.mp hcode
    exact absurd (hprefix.eq_of_length_le (List.length_pos_iff.mpr hne)) hproper
  | stray n w => cases hcode
  | internal w l r =>
    obtain ⟨u, hinput, hu⟩ := ht.decodeLoop_input hcodes (part.length + 1)
    obtain ⟨pos, v, hpart, hv, hwhere⟩ :=
      hu.decodeLoop_part (root := .internal w l r) (pos := .atRoot) rfl hcode hprefix hproper
    obtain ⟨hnil, -⟩ | ⟨cur, rfl⟩ := hwhere
    · exact absurd hnil hne
    obtain ⟨x, hend, hkept⟩ := hv.decodeEnd_traversing cur
    rw [hpart, silent_output, silent_ending, List.append_nil, Nat.add_right_comm, Nat.add_comm part.length] at hinput
    exact ⟨x, by rw [decodeWith_internal hopen ht (by rwa [List.length_append]), hend], hkept⟩

/-! ## Decoding what a whole encode wrote -/

/-- The empty input is written with no tree (R169). -/
theorem encodeInput_nil (s : State) : encodeInput [] s = (encodeWith [] [] s).andThen fun _ t => .done none t := by
  rw [encodeInput, frequencies_eq_nil_iff.mpr rfl]
  rfl

/-- Any other input within the limit is written with the codes of the tree built from its frequencies (R168, R174). -/
theorem encodeInput_of_ne_nil {input : List Byte} (hne : input ≠ []) (hlen : input.length ≤ Config.maxInput) (s : State) :
    encodeInput input s = (buildTree (frequencies input) s).andThen fun root t =>
      (encodeWith (codeTable root) input t).andThen fun _ u => .done (some root) u := by
  obtain ⟨f, fs, hfreqs⟩ := List.exists_cons_of_ne_nil (mt frequencies_eq_nil_iff.mp hne)
  rw [encodeInput, if_neg (Nat.not_lt.mpr hlen), hfreqs]

theorem length_le_of_encodeInput {input : List Byte} {s t : State} {tree : Option Tree} (h : encodeInput input s = .done tree t) :
    input.length ≤ Config.maxInput := by
  refine Nat.le_of_not_lt fun hlong => ?_
  rw [encodeInput, if_pos hlong] at h
  cases h

/-- An Encoder that is done found a code for every symbol (R174, R206). -/
theorem codeOf_isSome_of_writeSymbols {table : CodeTable} {input : List Byte} {s t : State}
    (h : writeSymbols table input s = .done () t) : ∀ c ∈ input, (codeOf table c).isSome = true := by
  induction input generalizing s with
  | nil => exact nofun
  | cons c cs ih =>
    unfold writeSymbols at h
    split at h
    · cases h
    · next code hcode =>
      obtain ⟨_, u, -, hrest⟩ := andThen_done h
      exact List.forall_mem_cons.mpr ⟨Option.isSome_of_eq_some hcode, ih hrest⟩

theorem codeOf_isSome_of_encodeWith {table : CodeTable} {input : List Byte} {s t : State}
    (h : encodeWith table input s = .done () t) : ∀ c ∈ input, (codeOf table c).isSome = true := by
  obtain ⟨_, u, -, h⟩ := andThen_done h
  obtain ⟨_, v, hwrite, -⟩ := andThen_done h
  exact codeOf_isSome_of_writeSymbols hwrite

/-- Settles O54: the encode left the BitFile of the input's codes, in which every symbol has one. -/
theorem decodeReturnsTheEncodedInput : Obligations.DecodeReturnsTheEncodedInput := by
  unfold Obligations.DecodeReturnsTheEncodedInput
  intro input s t tree hs h
  by_cases hne : input = []
  · subst hne
    rw [encodeInput_nil] at h
    obtain ⟨_, u, hencode, h⟩ := andThen_done h
    cases h
    obtain ⟨hidle, -, hbytes⟩ := encodeWith_bitFile hs hencode
    exact decodeWith_none hidle hbytes
  · rw [encodeInput_of_ne_nil hne (length_le_of_encodeInput h)] at h
    obtain ⟨root, u, hbuild, h⟩ := andThen_done h
    obtain ⟨_, v, hencode, h⟩ := andThen_done h
    cases h
    obtain ⟨hidle, hfits, hbytes⟩ := encodeWith_bitFile (buildTree_inv hs hbuild) hencode
    exact decodeWith_codedBits hidle hne (codeOf_isSome_of_encodeWith hencode) (Nat.le_of_lt_succ hfits) hbytes

end Sys2Proof.Client
end

section
/-! The Tree Builder (R168, R172, R235): what its calls leave in the OPL, and the trees the entries stand for. -/

namespace Sys2Proof.Client

open Sys2Proof.Machine

@[simp] theorem done_andThen {α β : Type} (a : α) (s : State) (f : α → State → Ran β) : (Ran.done a s).andThen f = f a s := rfl
@[simp] theorem done_emptyIsInvariant {α : Type} (a : α) (s : State) : (Ran.done a s).emptyIsInvariant = .done a s := rfl

/-! ## The OPL along a build -/

/-- A block that meets the invariant and differs from `o` in its OPL, which holds `l`, and in its ports and `ERRLOG` alone. -/
structure Holding (o : State) (l : List Entry) (s : State) : Prop where
  inv : s.Inv
  opl : s.opl = l
  bsc : sameBsc o s
  storage : s.storage = o.storage

section Calls

variable {o s : State} {l : List Entry}

theorem Holding.count (h : Holding o l s) : s.pqCount.toNat = l.length := by rw [h.inv.count, h.opl]

/-- PQ.INSERT with room completes (R101). -/
theorem Holding.call_pqInsert (h : Holding o l s) (hroom : l.length < Config.pqCapacity) (p : BitVec 16) (w : BitVec 32) :
    ∃ resp t, call (.pqInsert p w) s = .done resp t ∧ Holding o (oplInsert (entryOf p w) l) t := by
  have hcount : s.pqCount.toNat ≠ Config.pqCapacity := h.count ▸ hroom.ne
  have hcall := call_of_exec (i := .pqInsert p w) rfl (execPqInsert_of_room hcount) rfl
  exact ⟨_, _, hcall, (h.inv.inserted p w hcount).withResponse 0 0, congrArg (oplInsert _) h.opl, h.bsc, h.storage⟩

/-- PQ.SIZE returns the number of entries (R103). -/
theorem Holding.call_pqSize (h : Holding o l s) :
    ∃ resp t, call .pqSize s = .done resp t ∧ (respData resp).toNat = l.length ∧ Holding o l t := by
  have hcall := call_of_exec (i := .pqSize) rfl (respond_eq 0 (s.pqCount.setWidth 32) s) rfl
  refine ⟨_, _, hcall, ?_, h.inv.withResponse _ _, h.opl, h.bsc, h.storage⟩
  rw [respData_respWord, BitVec.toNat_setWidth_of_le (by decide), h.count]

/-- Removing the minimum gives the head's payload and weight (R102). -/
theorem Holding.removeNode {e : Entry} (h : Holding o (e :: l) s) :
    ∃ t, removeNode s = .done (e.payload.toNat, e.weight.toNat) t ∧ Holding o l t := by
  have hcount : s.pqCount ≠ 0 := fun h0 => by simpa [h0] using h.count
  have hcall := call_of_exec (i := .pqRemoveMin) rfl (execPqRemoveMin_of_cons hcount h.opl) rfl
  refine ⟨_, ?_, (h.inv.removed h.opl).withResponse e.payload e.weight, rfl, h.bsc, h.storage⟩
  rw [Client.removeNode, hcall, done_emptyIsInvariant, done_andThen, respPay_respWord, respData_respWord]

end Calls

/-! ## The trees of the entries -/

/-- The tree an entry stands for (R172, R235). -/
def Arena.treeOf (a : Arena) (e : Entry) : Tree := a.nodeOf (e.payload.toNat, e.weight.toNat)

theorem treeOf_cons_same {a : Arena} {n : Nat} {tree : Tree} {e : Entry} (h : e.payload.toNat = n) :
    Arena.treeOf ((n, tree) :: a) e = tree := by
  simp [Arena.treeOf, Arena.nodeOf, Arena.node, h]

theorem treeOf_cons_other {a : Arena} {n : Nat} {tree : Tree} {e : Entry} (h : e.payload.toNat ≠ n) :
    Arena.treeOf ((n, tree) :: a) e = a.treeOf e := by
  simp [Arena.treeOf, Arena.nodeOf, Arena.node, h.symm]

/-- The weight of a tree whose Internal weights add up is what its leaves and strays weigh (R163). -/
theorem weight_eq_of_weightsAdd {t : Tree} (h : t.weightsAdd) :
    t.weight = (t.leaves.map FreqEntry.count).sum + (t.strays.map Prod.snd).sum := by
  induction t with
  | leaf c w => rfl
  | stray n w => simp [Tree.weight, Tree.leaves, Tree.strays]
  | internal w l r hl hr =>
    obtain ⟨hw, hleft, hright⟩ := h
    simp only [Tree.leaves, Tree.strays, List.map_append, List.sum_append]
    rw [Tree.weight, hw, hl hleft, hr hright]
    omega

/-- The entries `l` stand for trees that hold these leaves and strays, each entry with its tree's weight (R163, R172). -/
structure Grove (a : Arena) (l : List Entry) (leaves : List FreqEntry) (strays : List (Nat × Nat)) : Prop where
  weight : ∀ e ∈ l, (a.treeOf e).weight = e.weight.toNat
  adds : ∀ e ∈ l, (a.treeOf e).weightsAdd
  leaves : (l.flatMap fun e => (a.treeOf e).leaves).Perm leaves
  strays : (l.flatMap fun e => (a.treeOf e).strays).Perm strays

section Groves

variable {a : Arena} {l l' : List Entry} {leaves : List FreqEntry} {strays : List (Nat × Nat)} {n : Nat} {tree : Tree} {e x y : Entry}

theorem Grove.perm (h : Grove a l leaves strays) (hl : l'.Perm l) : Grove a l' leaves strays :=
  ⟨fun e he => h.weight e (hl.mem_iff.mp he), fun e he => h.adds e (hl.mem_iff.mp he), (hl.flatMap_right _).trans h.leaves,
    (hl.flatMap_right _).trans h.strays⟩

/-- Before the build every entry is a stray (R235). -/
theorem Grove.ofEntries (l : List Entry) : Grove [] l [] (l.map fun e => (e.payload.toNat, e.weight.toNat)) := by
  refine ⟨fun _ _ => rfl, fun _ _ => trivial, ?_, ?_⟩
  · simp [Arena.treeOf, Arena.nodeOf, Arena.node, Tree.leaves]
  · exact .of_eq (List.map_eq_flatMap ..).symm

/-- A node made under a number that no entry has, with an entry for it. -/
theorem Grove.put (h : Grove a l leaves strays) (hfresh : ∀ f ∈ l, f.payload.toNat ≠ n) (hn : e.payload.toNat = n)
    (hw : tree.weight = e.weight.toNat) (hadds : tree.weightsAdd) :
    Grove ((n, tree) :: a) (e :: l) (tree.leaves ++ leaves) (tree.strays ++ strays) := by
  have hsame := treeOf_cons_same (a := a) (tree := tree) hn
  have hother : ∀ f ∈ l, Arena.treeOf ((n, tree) :: a) f = a.treeOf f := fun f hf => treeOf_cons_other (hfresh f hf)
  refine ⟨List.forall_mem_cons.mpr ⟨by rw [hsame, hw], fun f hf => by rw [hother f hf, h.weight f hf]⟩,
    List.forall_mem_cons.mpr ⟨by rwa [hsame], fun f hf => by rw [hother f hf]; exact h.adds f hf⟩, ?_, ?_⟩
  · rw [List.flatMap_cons, hsame, List.flatMap_congr fun f hf => congrArg Tree.leaves (hother f hf)]
    exact h.leaves.append_left _
  · rw [List.flatMap_cons, hsame, List.flatMap_congr fun f hf => congrArg Tree.strays (hother f hf)]
    exact h.strays.append_left _

/-- Two entries taken out and an Internal node over their trees put in for them: the leaves and strays are the same (R168). -/
theorem Grove.merge (h : Grove a (x :: y :: l) leaves strays) (hfresh : ∀ f ∈ l, f.payload.toNat ≠ n) (hn : e.payload.toNat = n)
    (hw : x.weight.toNat + y.weight.toNat = e.weight.toNat) :
    Grove ((n, .internal (x.weight.toNat + y.weight.toNat) (a.treeOf x) (a.treeOf y)) :: a) (e :: l) leaves strays := by
  obtain ⟨hweight, hadds, hleaves, hstrays⟩ := h
  obtain ⟨hwx, hwy, hwl⟩ : _ ∧ _ ∧ _ := by simpa only [List.forall_mem_cons] using hweight
  obtain ⟨hax, hay, hal⟩ : _ ∧ _ ∧ _ := by simpa only [List.forall_mem_cons] using hadds
  rw [List.flatMap_cons, List.flatMap_cons, ← List.append_assoc] at hleaves hstrays
  have hrest : Grove a l _ _ := ⟨hwl, hal, .refl _, .refl _⟩
  have hput := hrest.put (tree := .internal (x.weight.toNat + y.weight.toNat) (a.treeOf x) (a.treeOf y)) hfresh hn hw
    ⟨by rw [hwx, hwy], hax, hay⟩
  exact ⟨hput.weight, hput.adds, hput.leaves.trans hleaves, hput.strays.trans hstrays⟩

/-- The entries weigh what the leaves and the strays weigh. -/
theorem Grove.weight_sum (h : Grove a l leaves strays) :
    (l.map fun e => e.weight.toNat).sum = (leaves.map FreqEntry.count).sum + (strays.map Prod.snd).sum := by
  rw [← (h.leaves.map _).sum_eq, ← (h.strays.map _).sum_eq]
  obtain ⟨hweight, hadds, -, -⟩ := h
  induction l with
  | nil => rfl
  | cons e l ih =>
    obtain ⟨hwe, hwl⟩ := List.forall_mem_cons.mp hweight
    obtain ⟨hae, hal⟩ := List.forall_mem_cons.mp hadds
    simp only [List.map_cons, List.sum_cons, List.flatMap_cons, List.map_append, List.sum_append]
    rw [ih hwl hal, ← hwe, weight_eq_of_weightsAdd hae]
    omega

end Groves

/-! ## The entries a build puts in -/

/-- The entry of a Leaf: its node number is its symbol (R172). -/
def leafEntry (f : FreqEntry) : Entry := entryOf (f.symbol.setWidth 16) (BitVec.ofNat 32 f.count)

/-- The entry of the `t`-th Internal node, over the trees of `x` and `y` (R168, R172). -/
def internalEntry (t : Nat) (x y : Entry) : Entry :=
  entryOf (BitVec.ofNat 16 (Config.nsym + t)) (BitVec.ofNat 32 (x.weight.toNat + y.weight.toNat))

theorem toNat_weight_of_le {w : Nat} (h : w ≤ Config.maxInput) : (BitVec.ofNat 32 w).toNat = w :=
  (BitVec.toNat_ofNat _ _).trans (Nat.mod_eq_of_lt (Nat.lt_succ_of_le h))

theorem leafEntry_payload (f : FreqEntry) : (leafEntry f).payload.toNat = f.symbol.toNat := BitVec.toNat_setWidth_of_le (by decide)

theorem internalEntry_payload {t : Nat} (h : t ≤ Config.pqCapacity) (x y : Entry) :
    (internalEntry t x y).payload.toNat = Config.nsym + t :=
  (BitVec.toNat_ofNat _ _).trans (Nat.mod_eq_of_lt ((Nat.add_le_add_left h _).trans_lt (by decide)))

theorem mem_oplInsert {e f : Entry} {l : List Entry} : f ∈ oplInsert e l ↔ f = e ∨ f ∈ l :=
  (oplInsert_perm e l).mem_iff.trans List.mem_cons

/-- No entry has a node number the build still gives out, from `256 + t` to 510 (R172). -/
def NumbersFree (t : Nat) (l : List Entry) : Prop := ∀ e ∈ l, e.payload.toNat < Config.nsym + t ∨ 511 ≤ e.payload.toNat

theorem NumbersFree.insert {t : Nat} {l : List Entry} (h : NumbersFree t l) {e : Entry} (he : e.payload.toNat < Config.nsym + t) :
    NumbersFree t (oplInsert e l) := fun f hf => by
  obtain rfl | hf := mem_oplInsert.mp hf
  · exact .inl he
  · exact h f hf

/-- The next number is no entry's, and the numbers after it stay free. -/
theorem NumbersFree.next {t : Nat} {l : List Entry} (h : NumbersFree t l) (ht : t < 255) :
    NumbersFree (t + 1) l ∧ ∀ e ∈ l, e.payload.toNat ≠ Config.nsym + t := by
  simp only [NumbersFree, Config.nsym] at h ⊢
  exact ⟨fun e he => (h e he).imp_left fun hlt => by omega, fun e he heq => (h e he).elim (by omega) (by omega)⟩

/-! ## The leaves go in -/

theorem Holding.insertLeaves_cons {o s : State} {l : List Entry} (h : Holding o l s) (hroom : l.length < Config.pqCapacity)
    (f : FreqEntry) (fs : List FreqEntry) (a : Arena) :
    ∃ t, insertLeaves (f :: fs) a s = insertLeaves fs ((f.symbol.toNat, .leaf f.symbol f.count) :: a) t ∧
      Holding o (oplInsert (leafEntry f) l) t := by
  obtain ⟨_, t, hinsert, ht⟩ := h.call_pqInsert hroom (f.symbol.setWidth 16) (BitVec.ofNat 32 f.count)
  exact ⟨t, by rw [insertLeaves, hinsert, done_andThen], ht⟩

/-- Leaves of different symbols that are no entry's payload all go in where there is room for them (R168). -/
theorem insertLeaves_done {o : State} {strays : List (Nat × Nat)} (fs : List FreqEntry) {a : Arena} {l : List Entry} {s : State}
    {leaves : List FreqEntry} (hs : Holding o l s) (hgrove : Grove a l leaves strays) (hfree : NumbersFree 0 l)
    (hroom : l.length + fs.length ≤ Config.pqCapacity) (hdistinct : (fs.map FreqEntry.symbol).Nodup)
    (hnew : ∀ f ∈ fs, ∀ e ∈ l, e.payload.toNat ≠ f.symbol.toNat) (hcount : ∀ f ∈ fs, f.count ≤ Config.maxInput) :
    ∃ a' l' t, insertLeaves fs a s = .done a' t ∧ Holding o l' t ∧ Grove a' l' (fs.reverse ++ leaves) strays ∧ NumbersFree 0 l' ∧
      l'.length = l.length + fs.length := by
  induction fs generalizing a l s leaves with
  | nil => exact ⟨a, l, s, rfl, hs, hgrove, hfree, rfl⟩
  | cons f fs ih =>
    obtain ⟨hnewf, hnew⟩ := List.forall_mem_cons.mp hnew
    obtain ⟨hcountf, hcount⟩ := List.forall_mem_cons.mp hcount
    obtain ⟨hsymbol, hdistinct⟩ := List.nodup_cons.mp hdistinct
    rw [List.length_cons] at hroom
    have hpayload := leafEntry_payload f
    have hput := hgrove.put (tree := .leaf f.symbol f.count) hnewf hpayload (toNat_weight_of_le hcountf).symm trivial
    have hnew' : ∀ g ∈ fs, ∀ e ∈ oplInsert (leafEntry f) l, e.payload.toNat ≠ g.symbol.toNat := fun g hg e he => by
      obtain rfl | he := mem_oplInsert.mp he
      · rw [hpayload]
        exact fun heq => hsymbol (BitVec.eq_of_toNat_eq heq ▸ List.mem_map_of_mem hg)
      · exact hnew g hg e he
    have hlength := oplInsert_length (leafEntry f) l
    obtain ⟨u, hinsert, hu⟩ := hs.insertLeaves_cons (by omega) f fs a
    obtain ⟨a', l', t, hrest, ht, hgrove', hfree', hlength'⟩ := ih hu (hput.perm (oplInsert_perm _ l))
      (hfree.insert (hpayload ▸ f.symbol.isLt)) (by omega) hdistinct hnew' hcount
    refine ⟨a', l', t, hinsert.trans hrest, ht, ?_, hfree', by rw [hlength', hlength, List.length_cons]; omega⟩
    rwa [List.reverse_cons, List.append_assoc]

/-! ## The merge loop -/

/-- With one entry left the loop ends (R168). -/
theorem Holding.mergeLoop_single {o s : State} {e : Entry} (h : Holding o [e] s) (fuel t : Nat) (a : Arena) :
    ∃ u, mergeLoop (fuel + 1) t a s = .done a u ∧ Holding o [e] u := by
  obtain ⟨resp, u, hsize, hlength, hu⟩ := h.call_pqSize
  have hlast : (respData resp).toNat ≤ 1 := hlength.le
  exact ⟨u, by rw [mergeLoop, hsize, done_andThen, if_pos hlast], hu⟩

/-- A turn of the loop merges the two entries at the head (R168). -/
theorem Holding.mergeLoop_turn {o s : State} {x y : Entry} {l : List Entry} (h : Holding o (x :: y :: l) s)
    (hroom : l.length < Config.pqCapacity) (hfits : x.weight.toNat + y.weight.toNat ≤ Config.maxInput) (fuel t : Nat) (a : Arena) :
    ∃ u, mergeLoop (fuel + 1) t a s = mergeLoop fuel (t + 1)
        ((Config.nsym + t, .internal (x.weight.toNat + y.weight.toNat) (a.treeOf x) (a.treeOf y)) :: a) u ∧
      Holding o (oplInsert (internalEntry t x y) l) u := by
  obtain ⟨resp, s1, hsize, hlength, h1⟩ := h.call_pqSize
  obtain ⟨s2, hfirst, h2⟩ := h1.removeNode
  obtain ⟨s3, hsecond, h3⟩ := h2.removeNode
  obtain ⟨_, u, hinsert, hu⟩ := h3.call_pqInsert hroom (internalEntry t x y).payload (internalEntry t x y).weight
  have hmore : ¬ (respData resp).toNat ≤ 1 := by
    rw [hlength, List.length_cons, List.length_cons]
    omega
  refine ⟨u, ?_, hu⟩
  rw [mergeLoop, hsize, done_andThen, if_neg hmore, hfirst, done_andThen, hsecond, done_andThen, if_neg (Nat.not_lt.mpr hfits)]
  exact congrArg (Ran.andThen · _) hinsert

/-- While numbers are free and the weights fit, the loop merges all the entries into one and loses no leaf and no stray (R168). -/
theorem mergeLoop_done {o : State} {leaves : List FreqEntry} {strays : List (Nat × Nat)}
    (hfits : (leaves.map FreqEntry.count).sum + (strays.map Prod.snd).sum ≤ Config.maxInput) (fuel : Nat) {t : Nat} {a : Arena}
    {l : List Entry} {s : State} (hs : Holding o l s) (hgrove : Grove a l leaves strays) (hfree : NumbersFree t l) (hne : l ≠ [])
    (hfuel : l.length ≤ fuel) (hnumbers : t + l.length ≤ Config.pqCapacity) :
    ∃ a' e u, mergeLoop fuel t a s = .done a' u ∧ Holding o [e] u ∧ Grove a' [e] leaves strays := by
  induction fuel generalizing t a l s with
  | zero => exact absurd (List.length_eq_zero_iff.mp (Nat.le_zero.mp hfuel)) hne
  | succ fuel ih =>
    match l, hne with
    | [e], _ =>
      obtain ⟨u, hloop, hu⟩ := hs.mergeLoop_single fuel t a
      exact ⟨a, e, u, hloop, hu, hgrove⟩
    | x :: y :: l, _ =>
      simp only [List.length_cons, Config.pqCapacity] at hfuel hnumbers
      have hweights : x.weight.toNat + y.weight.toNat ≤ Config.maxInput := by
        have hsum := hgrove.weight_sum
        simp only [List.map_cons, List.sum_cons] at hsum
        omega
      have hpayload := internalEntry_payload (t := t) (by simp only [Config.pqCapacity]; omega) x y
      obtain ⟨hfree', hfresh⟩ := hfree.next (by omega)
      obtain ⟨-, hfree'⟩ := List.forall_mem_cons.mp hfree'
      obtain ⟨-, hfree'⟩ := List.forall_mem_cons.mp hfree'
      have hmerge := hgrove.merge (e := internalEntry t x y)
        (fun f hf => hfresh f (List.mem_cons_of_mem _ (List.mem_cons_of_mem _ hf))) hpayload (toNat_weight_of_le hweights).symm
      have hlength := oplInsert_length (internalEntry t x y) l
      obtain ⟨u, hturn, hu⟩ := hs.mergeLoop_turn (by simp only [Config.pqCapacity]; omega) hweights fuel t a
      obtain ⟨a', e', v, hloop, hv⟩ := ih hu (hmerge.perm (oplInsert_perm _ l))
        (NumbersFree.insert hfree' (by rw [hpayload]; exact Nat.lt_succ_self _)) (List.ne_nil_of_length_eq_add_one hlength)
        (by omega) (by simp only [Config.pqCapacity]; omega)
      exact ⟨a', e', v, hturn.trans hloop, hv⟩

/-! ## The whole build -/

/-- Settles O56: the leaves go in beside the old entries, the merges lose neither, and the root's weight is the sum of theirs. -/
theorem leftoverEntriesAreMergedIntoTheTree : Obligations.LeftoverEntriesAreMergedIntoTheTree := by
  unfold Obligations.LeftoverEntriesAreMergedIntoTheTree
  intro input s hs hne hroom hfits hold
  have hfree : NumbersFree 0 s.opl := fun e he => (hold e he).symm.imp_left And.left
  have hnew : ∀ f ∈ frequencies input, ∀ e ∈ s.opl, e.payload.toNat ≠ f.symbol.toNat := fun f hf e he heq => by
    have hmem : f.symbol ∈ input := mem_frequencies_symbols.mp (List.mem_map_of_mem hf)
    obtain hhigh | ⟨-, hnone⟩ := hold e he
    · have hlt := f.symbol.isLt
      omega
    · rw [heq, BitVec.ofNat_toNat, BitVec.setWidth_eq, List.count_eq_zero] at hnone
      exact hnone hmem
  have hstart : Holding s s.opl s := ⟨hs, rfl, ⟨rfl, rfl, rfl, rfl, rfl, rfl⟩, rfl⟩
  obtain ⟨a, l, s1, hinsert, h1, hgrove, hfree1, hlength⟩ := insertLeaves_done (frequencies input) hstart (.ofEntries s.opl) hfree
    hroom (frequencies_symbols_nodup input) hnew fun f hf => (count_le_of_mem_frequencies hf).trans (by omega)
  rw [List.append_nil] at hgrove
  have htotal : ((frequencies input).reverse.map FreqEntry.count).sum +
      ((s.opl.map fun e => (e.payload.toNat, e.weight.toNat)).map Prod.snd).sum =
        (s.opl.map fun e => e.weight.toNat).sum + input.length := by
    rw [((List.reverse_perm _).map _).sum_eq, frequencies_count_sum, List.map_map, Nat.add_comm]
    rfl
  have hpos := List.length_pos_iff.mpr (mt frequencies_eq_nil_iff.mp hne)
  obtain ⟨b, e, s2, hmerge, h2, hroot⟩ := mergeLoop_done (htotal.trans_le hfits) (Config.pqCapacity + 1) h1 hgrove hfree1
    (List.ne_nil_of_length_pos (by omega)) (by omega) (by omega)
  obtain ⟨t, hremove, ht⟩ := h2.removeNode
  obtain ⟨hweight, hadds, hleaves, hstrays⟩ := hroot
  rw [List.flatMap_singleton] at hleaves hstrays
  have hrootadds := hadds e (List.mem_singleton_self e)
  refine ⟨b.treeOf e, t, ?_, hleaves.trans (List.reverse_perm _), hstrays, hrootadds, ?_, ht.opl, BitVec.eq_of_toNat_eq ht.count,
    ht.bsc, ht.storage⟩
  · rw [buildTree, hinsert, done_andThen, hmerge, done_andThen, hremove, done_andThen]
    rfl
  · rw [weight_eq_of_weightsAdd hrootadds, (hleaves.map _).sum_eq, (hstrays.map _).sum_eq, htotal]

/-- Settles O51: with no old entries the tree has no strays. -/
theorem builderMakesOneTreeOfTheInput : Obligations.BuilderMakesOneTreeOfTheInput := by
  unfold Obligations.BuilderMakesOneTreeOfTheInput
  intro input s hs hempty hne hlen
  have hbuild := leftoverEntriesAreMergedIntoTheTree input s hs hne
  simp only [hempty, List.length_nil, List.map_nil, List.sum_nil, Nat.zero_add, List.perm_nil] at hbuild
  exact hbuild (frequencies_length_le input) hlen nofun

end Sys2Proof.Client
end

section
/-! The round trip (R169, R173, R181): an Encoder whose bits fit the header completes, and the codes of 16843009 symbols fit it. -/

namespace Sys2Proof.Client

open Sys2Proof.Machine

/-! ## Encodes that complete -/

/-- A run of well-formed commands that all complete is a run of calls that are all done. -/
theorem callAll_of_runCommands {is : List Instr} {s t : State} {ws : List RespWord} (hwf : ∀ i ∈ is, i.wf = true)
    (hrun : runCommands is s = some (t, ws)) (hdone : allComplete ws) : callAll is s = .done () t := by
  induction is generalizing s ws with
  | nil =>
    cases hrun
    rfl
  | cons i is ih =>
    obtain ⟨hi, his⟩ := List.forall_mem_cons.mp hwf
    rw [runCommands] at hrun
    split at hrun
    · next u hexec =>
      split at hrun
      · next w v vs hresponse hrest =>
        cases hrun
        obtain ⟨hw, hvs⟩ := List.forall_mem_cons.mp hdone
        rw [callAll, call_of (decode_encode hi) hexec (reply_of_response hresponse) hw, done_andThen]
        exact ih his hrest hvs
      · cases hrun
    · cases hrun
    · cases hrun

theorem bsWriteCode_wf (code : List Bool) : ∀ i ∈ bsWriteCode code, i.wf = true := by
  rw [bsWriteCode_eq]
  exact List.forall_mem_map.mpr fun p hp => decide_eq_true (writeCodeOperands_le code p hp)

/-- The bits of a session are counted in `BS_TOTAL` (R38). -/
theorem Writing.length_eq {b : List Bool} {s : State} (h : Writing b s) : b.length = s.bsTotal.toNat := by
  obtain ⟨hinv, hmode, rfl⟩ := h
  have hwrite := hinv.mode
  simp only [modeInv, hmode] at hwrite
  exact s.appended_length hwrite.1

/-- A code whose bits fit the header is written whole (R175). -/
theorem Writing.callAll_bsWriteCode_fits {b code : List Bool} {s : State} (h : Writing b s)
    (hfits : b.length + code.length ≤ Config.maxTotal) :
    ∃ t, callAll (bsWriteCode code) s = .done () t ∧ Writing (b ++ code) t := by
  rw [h.length_eq] at hfits
  obtain ⟨t, ws, hrun, hdone, -⟩ := writeCodeAppendsTheWholeCode s code h.inv h.mode hfits
  have hcall := callAll_of_runCommands (bsWriteCode_wf code) hrun hdone
  exact ⟨t, hcall, h.callAll_bsWriteCode hcall⟩

/-- Symbols that have codes are all written where their codes fit the header (R174). -/
theorem Writing.writeSymbols_fits {table : CodeTable} {input : List Byte} {b : List Bool} {s : State} (h : Writing b s)
    (hcodes : ∀ c ∈ input, (codeOf table c).isSome = true)
    (hfits : b.length + (codedBits table input).length ≤ Config.maxTotal) :
    ∃ t, writeSymbols table input s = .done () t ∧ Writing (b ++ codedBits table input) t := by
  induction input generalizing b s with
  | nil => exact ⟨s, rfl, by rwa [codedBits, List.flatMap_nil, List.append_nil]⟩
  | cons c cs ih =>
    obtain ⟨hc, hcs⟩ := List.forall_mem_cons.mp hcodes
    obtain ⟨code, hcode⟩ := Option.isSome_iff_exists.mp hc
    rw [codedBits_cons hcode, List.length_append, ← Nat.add_assoc] at hfits
    obtain ⟨u, hwrite, hu⟩ := h.callAll_bsWriteCode_fits ((Nat.le_add_right _ _).trans hfits)
    obtain ⟨t, hrest, ht⟩ := ih hu hcs (by rwa [List.length_append])
    refine ⟨t, ?_, by rwa [codedBits_cons hcode, ← List.append_assoc]⟩
    simp only [writeSymbols, hcode, hwrite, done_andThen, hrest]

/-- From an Idle block an Encoder whose codes fit the header completes (R174). -/
theorem encodeWith_fits {table : CodeTable} {input : List Byte} {s : State} (hs : s.Inv) (hidle : s.bsMode = .idle)
    (hcodes : ∀ c ∈ input, (codeOf table c).isSome = true) (hfits : (codedBits table input).length ≤ Config.maxTotal) :
    ∃ t, encodeWith table input s = .done () t := by
  obtain ⟨s1, hexec, hreply, -⟩ := execBsOpen_writing hidle
  have hopen := call_of_exec (i := .bsOpen 0) rfl hexec hreply
  obtain ⟨s2, hwrite, hinv, hmode, -⟩ :=
    (call_bsOpen_writing hs hopen).writeSymbols_fits hcodes (by rwa [List.length_nil, Nat.zero_add])
  obtain ⟨s3, hexec, hreply, -⟩ := execBsClose_bitFile hinv hmode
  have hclose := call_of_exec (i := .bsClose) rfl hexec hreply
  exact ⟨s3, by rw [encodeWith, hopen, done_andThen, hwrite, done_andThen, hclose, done_andThen]⟩

/-! ## Every input within the bound -/

/-- From an Idle block and an empty OPL a whole encode of at most 16843009 bytes completes: a tree of at most 256 leaves has no code of more
than 255 bits (R173). -/
theorem encodeInput_fits {input : List Byte} {s : State} (hs : s.Inv) (hidle : s.bsMode = .idle) (hopl : s.opl = [])
    (hlen : input.length ≤ 16843009) : ∃ tree t, encodeInput input s = .done tree t := by
  by_cases hne : input = []
  · subst hne
    obtain ⟨t, hencode⟩ := encodeWith_fits (table := []) (input := []) hs hidle nofun (Nat.zero_le _)
    exact ⟨none, t, by rw [encodeInput_nil, hencode, done_andThen]⟩
  · have hlimit : input.length ≤ Config.maxInput := hlen.trans (by decide)
    obtain ⟨root, u, hbuild, hleaves, hstrays, -, -, -, -, ⟨hmode, -⟩, -⟩ :=
      builderMakesOneTreeOfTheInput input s hs hopl hne hlimit
    have hcodes : ∀ c ∈ input, (codeOf (codeTable root) c).isSome = true := fun c hc => by
      rw [codeOf_isSome_iff, codeTable_symbols, (hleaves.map _).mem_iff]
      exact mem_frequencies_symbols.mpr hc
    have hsize : root.leaves.length ≤ Config.nsym := hleaves.length_eq.trans_le (frequencies_length_le input)
    have hbits := codedBits_length_le (fun p hp => code_length_le hstrays hsize (c := p.1) hp) input
    obtain ⟨t, hencode⟩ := encodeWith_fits (buildTree_inv hs hbuild) (hmode.trans hidle) hcodes
      (hbits.trans (Nat.mul_le_mul_right 255 hlen))
    exact ⟨some root, t, by rw [encodeInput_of_ne_nil hne hlimit, hbuild, done_andThen, hencode, done_andThen]⟩

/-- Settles O53: the encode completes, and what it wrote decodes back. -/
theorem everyInputUpTo16843009BytesRoundTrips : Obligations.EveryInputUpTo16843009BytesRoundTrips := by
  unfold Obligations.EveryInputUpTo16843009BytesRoundTrips
  intro input s hs hidle hopl hlen
  obtain ⟨tree, t, hencode⟩ := encodeInput_fits hs hidle hopl hlen
  obtain ⟨u, hdecode⟩ := decodeReturnsTheEncodedInput input s t tree hs hencode
  exact ⟨tree, t, u, hencode, hdecode⟩

end Sys2Proof.Client
end

section
/-! The faults (R200 to R211): what every fault leaves unchanged, and the conditions that raise IllegalCommand, ConfigurationError,
ProtocolError and CapacityError. -/

namespace Sys2Proof.Machine

/-! ## What every fault leaves unchanged -/

/-- The first fault since reset is logged (R30). -/
theorem errlogAfter_of_eq_zero (k : FaultKind) {e : BitVec 4} (he : e = 0) : errlogAfter k e = k.code := if_pos he

/-- Settles O32, by the two ways a command ends: a fault changes `ERRLOG` and the response alone, and a completed command's `STATUS` is 0. -/
theorem faultChangesNothingButErrlog : Obligations.FaultChangesNothingButErrlog := by
  unfold Obligations.FaultChangesNothingButErrlog
  intro i s t w h hw hne
  cases exec_ends h with
  | raised k h5 h6 =>
    cases hw
    refine ⟨⟨rfl, rfl, rfl, rfl, rfl, rfl⟩, ⟨rfl, rfl⟩, rfl, rfl, respPay_respWord _ _ _, respData_respWord _ _ _, fun hzero => ?_,
      errlogAfter_of_ne_zero k⟩
    rw [withFault_errlog, errlogAfter_of_eq_zero k hzero, respStatus_respWord]
  | completed u p d he hm hp => exact absurd (withResponse_faultless u p d w hw) hne

/-! ## IllegalCommand -/

/-- Settles O7: a step that issues a refused word raises `IllegalCommand` with the move taken off. -/
theorem illegalWordOnlyRespondsAndLogs : Obligations.IllegalWordOnlyRespondsAndLogs := by
  unfold Obligations.IllegalWordOnlyRespondsAndLogs
  intro s w rest e hmoves hrefused
  have hstep : step s = runWord w { s with moves := rest } := by rw [step, hmoves]
  exact raisesOnly_of_eq (hstep.trans (runWord_of_error _ hrefused))

/-! ## ConfigurationError -/

/-- A mode operand of 2 or more is no open mode (R82). -/
theorem openMode_eq_none {mode : BitVec 8} (h : 2 ≤ mode.toNat) : openMode mode = none := by
  obtain ⟨k, hk⟩ := Nat.exists_eq_add_of_le' h
  rw [openMode, hk]
  rfl

/-- Settles O15: BS.OPEN looks at its mode operand before `BS_MODE`. -/
theorem invalidOpenModeRaisesConfiguration : Obligations.InvalidOpenModeRaisesConfiguration := by
  unfold Obligations.InvalidOpenModeRaisesConfiguration
  intro s mode h
  have hraise : execBsOpen mode s = raise .configurationError s := by rw [execBsOpen, openMode_eq_none h]
  exact raisesOnly_of_eq hraise

/-! ## ProtocolError -/

/-- The mode operands 0 and 1 are the open modes (R82). -/
theorem exists_openMode_of_lt {mode : BitVec 8} (h : mode.toNat < 2) : ∃ m, openMode mode = some m := by
  obtain hmode | hmode : mode.toNat = 0 ∨ mode.toNat = 1 := by omega
  · exact ⟨.write, by simp only [openMode, hmode]⟩
  · exact ⟨.read, by simp only [openMode, hmode]⟩

theorem execBsOpen_of_mode_ne {mode : BitVec 8} {s : State} (hvalid : mode.toNat < 2) (hmode : s.bsMode ≠ .idle) :
    execBsOpen mode s = raise .protocolError s := by
  obtain ⟨m, hm⟩ := exists_openMode_of_lt hvalid
  rw [execBsOpen, hm]
  exact if_pos hmode

theorem execBsClose_of_idle {s : State} (hmode : s.bsMode = .idle) : execBsClose s = raise .protocolError s := by
  rw [execBsClose, hmode]

/-- Settles O16, one command at a time: past its operand each tests `BS_MODE` first. -/
theorem wrongModeRaisesProtocol : Obligations.WrongModeRaisesProtocol := by
  unfold Obligations.WrongModeRaisesProtocol
  intro s
  refine ⟨fun hmode mode hvalid => ?_, fun hmode n value hn => ?_, fun hmode => ⟨fun n hn => ?_, ?_⟩, fun hmode => ?_⟩
  · exact raisesOnly_of_eq (execBsOpen_of_mode_ne hvalid hmode)
  · exact raisesOnly_of_eq (execBsWrite_of_mode_ne value hn hmode)
  · exact raisesOnly_of_eq (execBsRead_of_mode_ne hn hmode)
  · exact raisesOnly_of_eq (execBsMore_of_mode_ne hmode)
  · exact raisesOnly_of_eq (execBsClose_of_idle hmode)

/-! ## CapacityError -/

/-- A total whose bytes do not fit the Storage does not fit the header field either (R5, R207). -/
theorem maxTotal_lt_of_storeMax_lt {total : Nat} (h : Config.storeMax < Config.hdr + ceil8 total) : Config.maxTotal < total :=
  Nat.lt_of_not_le fun hle => Nat.not_lt.mpr (fits_storage hle) h

/-- Settles O17: a full list, and a new total that is over both limits where it is over one. -/
theorem capacityLimitsRaise : Obligations.CapacityLimitsRaise := by
  unfold Obligations.CapacityLimitsRaise
  intro s
  refine ⟨fun hfull p w => ?_, fun hmode n value hn hlimit => ?_⟩
  · exact raisesOnly_of_eq (execPqInsert_of_full hfull)
  · have hover : Config.maxTotal < s.bsTotal.toNat + n.toNat := hlimit.elim id maxTotal_lt_of_storeMax_lt
    exact raisesOnly_of_eq (execBsWrite_of_over value hn hmode hover)

end Sys2Proof.Machine
end

section
/-! Reset and the host's moves (R231, R232, R246 to R248): a step takes one move off the host's sequence, reset clears the block and keeps the Storage,
and a Storage move that R247 does not allow stops the run. -/

namespace Sys2Proof.Machine

/-! ## A step takes one move -/

theorem exec_moves {i : Instr} {s t : State} (h : exec i s = .next t) : t.moves = s.moves := by
  cases exec_ends h with
  | raised k h5 h6 => exact withFault_moves s k
  | completed u p d he hm hp => rw [withResponse_moves, hm]

theorem runWord_moves {w : CmdWord} {s t : State} (h : runWord w s = .next t) : t.moves = s.moves := by
  unfold runWord at h
  split at h
  · exact exec_moves h
  · cases h; exact withFault_moves s _

theorem hostLoadStorage_moves {image : List Byte} {s t : State} (h : hostLoadStorage image s = .next t) : t.moves = s.moves := by
  unfold hostLoadStorage at h
  split at h
  · cases h
  · split at h
    · cases h
    · cases h; rfl

theorem hostReadStorage_moves {s t : State} (h : hostReadStorage s = .next t) : t.moves = s.moves := by
  unfold hostReadStorage at h
  split at h
  · cases h
  · cases h; rfl

/-- With no host move left the block waits (R246; log entry 3). -/
theorem step_of_no_move {s : State} (hmoves : s.moves = []) : step s = .next s := by
  rw [step, hmoves]
  rfl

theorem step_moves {s t : State} (h : step s = .next t) : t.moves = s.moves.tail := by
  unfold step at h
  split at h
  · next hmoves => cases h; rw [hmoves, List.tail_nil]
  · next w rest hmoves => rw [runWord_moves h, hmoves, List.tail_cons]
  · next rest hmoves => cases h; rw [resetBlock_moves, hmoves, List.tail_cons]
  · next image rest hmoves => rw [hostLoadStorage_moves h, hmoves, List.tail_cons]
  · next rest hmoves => rw [hostReadStorage_moves h, hmoves, List.tail_cons]

/-- Settles O41: no command and no host move writes the moves that the step has left in the state. -/
theorem eachStepTakesOneHostMove : Obligations.EachStepTakesOneHostMove := by
  unfold Obligations.EachStepTakesOneHostMove
  intro s t h
  refine ⟨step_moves h, fun hmoves => ?_⟩
  cases (step_of_no_move hmoves).symm.trans h
  rfl

/-! ## Reset -/

/-- Settles O37: each register of the reset state is the number 0. -/
theorem resetStateIsZero : Obligations.ResetStateIsZero :=
  ⟨rfl, rfl, rfl, rfl, rfl, rfl, rfl, rfl, rfl⟩

theorem step_of_reset {s : State} {rest : List HostMove} (hmoves : s.moves = .reset :: rest) :
    step s = .next (resetBlock { s with moves := rest }) := by
  rw [step, hmoves]
  rfl

/-- Settles O38: the step is the reset of the block, field by field. -/
theorem resetMoveClearsTheBlockAndKeepsTheStorage : Obligations.ResetMoveClearsTheBlockAndKeepsTheStorage := by
  unfold Obligations.ResetMoveClearsTheBlockAndKeepsTheStorage
  intro s rest hmoves
  exact ⟨_, step_of_reset hmoves, resetBlock_bsMode _, resetBlock_bsTotal _, resetBlock_bsLen _, resetBlock_bsRemain _, resetBlock_bsAcc _,
    resetBlock_bsNacc _, resetBlock_pqCount _, resetBlock_errlog _, resetBlock_opl _, resetBlock_storage _, resetBlock_reply _,
    resetBlock_moves _⟩

/-! ## Storage moves that R247 does not allow -/

theorem hostLoadStorage_in_session (image : List Byte) {s : State} (hsession : s.bsMode ≠ .idle) :
    hostLoadStorage image s = .fault .hostStorageInSession := if_pos hsession

theorem hostReadStorage_in_session {s : State} (hsession : s.bsMode ≠ .idle) :
    hostReadStorage s = .fault .hostStorageInSession := if_pos hsession

theorem hostLoadStorage_too_long {image : List Byte} {s : State} (hidle : s.bsMode = .idle) (hlong : Config.storeMax < image.length) :
    hostLoadStorage image s = .fault .hostStorageTooLong := by
  rw [hostLoadStorage, if_neg (not_not.mpr hidle), if_pos hlong]

/-- Settles O40: both Storage moves test the mode first, and a load then tests its length. -/
theorem forbiddenStorageMovesStop : Obligations.ForbiddenStorageMovesStop := by
  unfold Obligations.ForbiddenStorageMovesStop
  intro s rest image
  refine ⟨fun hsession hmoves => ?_, fun hsession hmoves => ?_, fun hidle hlong hmoves => ?_⟩
  · rw [step, hmoves]
    exact hostLoadStorage_in_session image hsession
  · rw [step, hmoves]
    exact hostReadStorage_in_session hsession
  · rw [step, hmoves]
    exact hostLoadStorage_too_long hidle hlong

end Sys2Proof.Machine
end
